-- ==== Sys2Proof/Word.lean ====
section
/-! DEFINITION. The words of the machine: bytes, 12-bit addresses, 16-bit instruction words, register numbers. -/

namespace Sys2Proof

/-- An 8-bit value: a general register, a timer, a byte of memory (10_state.md R31, R40; 20_memory.md R70).
Its arithmetic wraps mod 256 (41_alu.md R150). -/
abbrev Byte := BitVec 8

/-- A 12-bit value: I, PC, a stack entry, a memory address (10_state.md R34, R35, R37). Its arithmetic wraps
mod 4096 (10_state.md R36, 20_memory.md R71). -/
abbrev Addr := BitVec 12

/-- An instruction word (30_encoding.md R90). -/
abbrev Word := BitVec 16

/-- A register number or a key number, 0 to 15 (10_state.md R31, R42). -/
abbrev Reg := Fin 16

end Sys2Proof
end

