-- ==== Sys2Proof/Syntax.lean ====
section
/-! DEFINITION. The instructions: one constructor per row of spec/opcode_table.json, in the table's order. -/

namespace Sys2Proof

/-- The 35 instructions of 30_encoding.md R95. Register fields are register numbers, `kk` is the byte, `nnn` the
address and `n` the nibble of R91. -/
inductive Instr where
  /-- 00E0 CLS (43_display.md R203) -/
  | cls
  /-- 00EE RET (40_control_flow.md R130) -/
  | ret
  /-- 0nnn SYS nnn, every family-0 word but 00E0 and 00EE (R131, 30_encoding.md R96) -/
  | sys (nnn : Addr)
  /-- 1nnn JP nnn (R132) -/
  | jp (nnn : Addr)
  /-- 2nnn CALL nnn (R133) -/
  | call (nnn : Addr)
  /-- 3xkk SE Vx, kk (R134) -/
  | se (x : Reg) (kk : Byte)
  /-- 4xkk SNE Vx, kk (R135) -/
  | sne (x : Reg) (kk : Byte)
  /-- 5xy0 SE Vx, Vy (R136) -/
  | seReg (x y : Reg)
  /-- 6xkk LD Vx, kk (41_alu.md R151) -/
  | ld (x : Reg) (kk : Byte)
  /-- 7xkk ADD Vx, kk (R152) -/
  | add (x : Reg) (kk : Byte)
  /-- 8xy0 LD Vx, Vy (R153) -/
  | ldReg (x y : Reg)
  /-- 8xy1 OR Vx, Vy (R154) -/
  | orReg (x y : Reg)
  /-- 8xy2 AND Vx, Vy (R155) -/
  | andReg (x y : Reg)
  /-- 8xy3 XOR Vx, Vy (R156) -/
  | xorReg (x y : Reg)
  /-- 8xy4 ADD Vx, Vy (R158) -/
  | addReg (x y : Reg)
  /-- 8xy5 SUB Vx, Vy (R159) -/
  | sub (x y : Reg)
  /-- 8xy6 SHR Vx; the field y is encoded and never read (R160) -/
  | shr (x y : Reg)
  /-- 8xy7 SUBN Vx, Vy (R161) -/
  | subn (x y : Reg)
  /-- 8xyE SHL Vx; the field y is encoded and never read (R162) -/
  | shl (x y : Reg)
  /-- 9xy0 SNE Vx, Vy (40_control_flow.md R137) -/
  | sneReg (x y : Reg)
  /-- Annn LD I, nnn (42_index_memory.md R180) -/
  | ldI (nnn : Addr)
  /-- Bnnn JP V0, nnn (40_control_flow.md R138) -/
  | jpV0 (nnn : Addr)
  /-- Cxkk RND Vx, kk (41_alu.md R163) -/
  | rnd (x : Reg) (kk : Byte)
  /-- Dxyn DRW Vx, Vy, n (43_display.md R204) -/
  | drw (x y : Reg) (n : BitVec 4)
  /-- Ex9E SKP Vx (44_timers_keys.md R221) -/
  | skp (x : Reg)
  /-- ExA1 SKNP Vx (R222) -/
  | sknp (x : Reg)
  /-- Fx07 LD Vx, DT (R223) -/
  | ldVxDt (x : Reg)
  /-- Fx0A LD Vx, K (R224) -/
  | ldVxK (x : Reg)
  /-- Fx15 LD DT, Vx (R227) -/
  | ldDtVx (x : Reg)
  /-- Fx18 LD ST, Vx (R228) -/
  | ldStVx (x : Reg)
  /-- Fx1E ADD I, Vx (42_index_memory.md R181) -/
  | addIVx (x : Reg)
  /-- Fx29 LD F, Vx (R182) -/
  | ldFVx (x : Reg)
  /-- Fx33 LD B, Vx (R183) -/
  | ldBVx (x : Reg)
  /-- Fx55 LD [I], Vx (R184) -/
  | ldMemVx (x : Reg)
  /-- Fx65 LD Vx, [I] (R185) -/
  | ldVxMem (x : Reg)
deriving DecidableEq, Repr

end Sys2Proof
end

