-- ==== Sys2Proof/Decode.lean ====
section
/-! DEFINITION. The decoder, total on every word (30_encoding.md R95 to R97, R105), and the encoder after it. -/

namespace Sys2Proof

/-! ## The fields of a word (30_encoding.md R91) -/

/-- `w[15:12]`, the major opcode. -/
def opField (w : Word) : BitVec 4 := w.extractLsb' 12 4
/-- `w[11:8]` as a register number. -/
def xField (w : Word) : Reg := (w.extractLsb' 8 4).toFin
/-- `w[7:4]` as a register number. -/
def yField (w : Word) : Reg := (w.extractLsb' 4 4).toFin
/-- `w[3:0]`. -/
def nField (w : Word) : BitVec 4 := w.extractLsb' 0 4
/-- `w[7:0]`. -/
def kkField (w : Word) : Byte := w.extractLsb' 0 8
/-- `w[11:0]`. -/
def nnnField (w : Word) : Addr := w.extractLsb' 0 12

/-! ## Decoding -/

/-- The five spaces of words that are no instruction, by name (30_encoding.md R97). -/
inductive DecodeReject where
  /-- op = 5 and n ≠ 0 -/
  | family5
  /-- op = 8 and n in 8, 9, A, B, C, D, F -/
  | family8
  /-- op = 9 and n ≠ 0 -/
  | family9
  /-- op = E and kk neither 9E nor A1 -/
  | familyE
  /-- op = F and kk none of 07, 0A, 15, 18, 1E, 29, 33, 55, 65 -/
  | familyF
deriving DecidableEq, Repr

/-- Family 0: the two fixed words win over SYS (30_encoding.md R96). -/
def decode0 (w : Word) : Instr :=
  if w = 0x00E0#16 then .cls else if w = 0x00EE#16 then .ret else .sys (nnnField w)

/-- Family 8, by the nibble n. -/
def decode8 (w : Word) : Except DecodeReject Instr :=
  match (nField w).toNat with
  | 0x0 => .ok (.ldReg (xField w) (yField w))
  | 0x1 => .ok (.orReg (xField w) (yField w))
  | 0x2 => .ok (.andReg (xField w) (yField w))
  | 0x3 => .ok (.xorReg (xField w) (yField w))
  | 0x4 => .ok (.addReg (xField w) (yField w))
  | 0x5 => .ok (.sub (xField w) (yField w))
  | 0x6 => .ok (.shr (xField w) (yField w))
  | 0x7 => .ok (.subn (xField w) (yField w))
  | 0xE => .ok (.shl (xField w) (yField w))
  | _ => .error .family8

/-- Family E, by the byte kk. -/
def decodeE (w : Word) : Except DecodeReject Instr :=
  if kkField w = 0x9E#8 then .ok (.skp (xField w))
  else if kkField w = 0xA1#8 then .ok (.sknp (xField w))
  else .error .familyE

/-- Family F, by the byte kk. -/
def decodeF (w : Word) : Except DecodeReject Instr :=
  if kkField w = 0x07#8 then .ok (.ldVxDt (xField w))
  else if kkField w = 0x0A#8 then .ok (.ldVxK (xField w))
  else if kkField w = 0x15#8 then .ok (.ldDtVx (xField w))
  else if kkField w = 0x18#8 then .ok (.ldStVx (xField w))
  else if kkField w = 0x1E#8 then .ok (.addIVx (xField w))
  else if kkField w = 0x29#8 then .ok (.ldFVx (xField w))
  else if kkField w = 0x33#8 then .ok (.ldBVx (xField w))
  else if kkField w = 0x55#8 then .ok (.ldMemVx (xField w))
  else if kkField w = 0x65#8 then .ok (.ldVxMem (xField w))
  else .error .familyF

/-- The dispatcher's decoder (30_encoding.md R95): every word is exactly one instruction or is rejected by name. -/
def decode (w : Word) : Except DecodeReject Instr :=
  match (opField w).toNat with
  | 0x0 => .ok (decode0 w)
  | 0x1 => .ok (.jp (nnnField w))
  | 0x2 => .ok (.call (nnnField w))
  | 0x3 => .ok (.se (xField w) (kkField w))
  | 0x4 => .ok (.sne (xField w) (kkField w))
  | 0x5 => if nField w = 0#4 then .ok (.seReg (xField w) (yField w)) else .error .family5
  | 0x6 => .ok (.ld (xField w) (kkField w))
  | 0x7 => .ok (.add (xField w) (kkField w))
  | 0x8 => decode8 w
  | 0x9 => if nField w = 0#4 then .ok (.sneReg (xField w) (yField w)) else .error .family9
  | 0xA => .ok (.ldI (nnnField w))
  | 0xB => .ok (.jpV0 (nnnField w))
  | 0xC => .ok (.rnd (xField w) (kkField w))
  | 0xD => .ok (.drw (xField w) (yField w) (nField w))
  | 0xE => decodeE w
  | _ => decodeF w

/-- The word two bytes of memory hold: big-endian, the byte at the lower address first (20_memory.md R73). -/
def wordOfBytes (hi lo : Byte) : Word := hi ++ lo

/-- The byte of a word at the lower address. -/
def hiByte (w : Word) : Byte := w.extractLsb' 8 8
/-- The byte of a word at the higher address. -/
def loByte (w : Word) : Byte := w.extractLsb' 0 8

/-- An instruction word of the opcode table, whose `nbits` low bits are `w`; the bits above are 0. The table gives
every row 16 bits, one word (30_encoding.md R90). -/
def tableWord (nbits w : Nat) : Word := BitVec.ofNat 16 (w % 2 ^ min nbits 16)

/-- What the decoder reads from an instruction whose bits are `w`, laid out in bytes as the hardware stores them. -/
def decodeTableWord (nbits w : Nat) : Option Instr :=
  match decode (wordOfBytes (hiByte (tableWord nbits w)) (loByte (tableWord nbits w))) with
  | .ok i => some i
  | .error _ => none

/-! ## Encoding (30_encoding.md R91, R92, R95) -/

/-- Format A: `op` and a 12-bit address. -/
def formA (op : BitVec 4) (nnn : Addr) : Word := op ++ nnn
/-- Formats XK and X: `op`, a register and a byte. -/
def formXK (op : BitVec 4) (x : Reg) (kk : Byte) : Word := op ++ BitVec.ofFin (w := 4) x ++ kk
/-- Format XYN: `op`, two registers and a nibble. -/
def formXYN (op : BitVec 4) (x y : Reg) (n : BitVec 4) : Word :=
  op ++ BitVec.ofFin (w := 4) x ++ BitVec.ofFin (w := 4) y ++ n

/-- The word of an instruction (30_encoding.md R95). -/
def encode : Instr → Word
  | .cls => 0x00E0#16
  | .ret => 0x00EE#16
  | .sys nnn => formA 0x0#4 nnn
  | .jp nnn => formA 0x1#4 nnn
  | .call nnn => formA 0x2#4 nnn
  | .se x kk => formXK 0x3#4 x kk
  | .sne x kk => formXK 0x4#4 x kk
  | .seReg x y => formXYN 0x5#4 x y 0x0#4
  | .ld x kk => formXK 0x6#4 x kk
  | .add x kk => formXK 0x7#4 x kk
  | .ldReg x y => formXYN 0x8#4 x y 0x0#4
  | .orReg x y => formXYN 0x8#4 x y 0x1#4
  | .andReg x y => formXYN 0x8#4 x y 0x2#4
  | .xorReg x y => formXYN 0x8#4 x y 0x3#4
  | .addReg x y => formXYN 0x8#4 x y 0x4#4
  | .sub x y => formXYN 0x8#4 x y 0x5#4
  | .shr x y => formXYN 0x8#4 x y 0x6#4
  | .subn x y => formXYN 0x8#4 x y 0x7#4
  | .shl x y => formXYN 0x8#4 x y 0xE#4
  | .sneReg x y => formXYN 0x9#4 x y 0x0#4
  | .ldI nnn => formA 0xA#4 nnn
  | .jpV0 nnn => formA 0xB#4 nnn
  | .rnd x kk => formXK 0xC#4 x kk
  | .drw x y n => formXYN 0xD#4 x y n
  | .skp x => formXK 0xE#4 x 0x9E#8
  | .sknp x => formXK 0xE#4 x 0xA1#8
  | .ldVxDt x => formXK 0xF#4 x 0x07#8
  | .ldVxK x => formXK 0xF#4 x 0x0A#8
  | .ldDtVx x => formXK 0xF#4 x 0x15#8
  | .ldStVx x => formXK 0xF#4 x 0x18#8
  | .addIVx x => formXK 0xF#4 x 0x1E#8
  | .ldFVx x => formXK 0xF#4 x 0x29#8
  | .ldBVx x => formXK 0xF#4 x 0x33#8
  | .ldMemVx x => formXK 0xF#4 x 0x55#8
  | .ldVxMem x => formXK 0xF#4 x 0x65#8

/-! ## The opcode table's rows (30_encoding.md R92; spec/opcode_table.json "mask" and "match") -/

/-- The bits of an instruction's word that its row fixes. -/
def Instr.tableMask : Instr → Word
  | .cls | .ret => 0xFFFF
  | .sys _ | .jp _ | .call _ | .ldI _ | .jpV0 _ => 0xF000
  | .se _ _ | .sne _ _ | .ld _ _ | .add _ _ | .rnd _ _ | .drw _ _ _ => 0xF000
  | .seReg _ _ | .sneReg _ _ | .ldReg _ _ | .orReg _ _ | .andReg _ _ | .xorReg _ _ => 0xF00F
  | .addReg _ _ | .sub _ _ | .shr _ _ | .subn _ _ | .shl _ _ => 0xF00F
  | .skp _ | .sknp _ | .ldVxDt _ | .ldVxK _ | .ldDtVx _ | .ldStVx _ => 0xF0FF
  | .addIVx _ | .ldFVx _ | .ldBVx _ | .ldMemVx _ | .ldVxMem _ => 0xF0FF

/-- What those bits hold. -/
def Instr.tableMatch : Instr → Word
  | .cls => 0x00E0 | .ret => 0x00EE | .sys _ => 0x0000 | .jp _ => 0x1000 | .call _ => 0x2000
  | .se _ _ => 0x3000 | .sne _ _ => 0x4000 | .seReg _ _ => 0x5000 | .ld _ _ => 0x6000 | .add _ _ => 0x7000
  | .ldReg _ _ => 0x8000 | .orReg _ _ => 0x8001 | .andReg _ _ => 0x8002 | .xorReg _ _ => 0x8003
  | .addReg _ _ => 0x8004 | .sub _ _ => 0x8005 | .shr _ _ => 0x8006 | .subn _ _ => 0x8007 | .shl _ _ => 0x800E
  | .sneReg _ _ => 0x9000 | .ldI _ => 0xA000 | .jpV0 _ => 0xB000 | .rnd _ _ => 0xC000 | .drw _ _ _ => 0xD000
  | .skp _ => 0xE09E | .sknp _ => 0xE0A1 | .ldVxDt _ => 0xF007 | .ldVxK _ => 0xF00A | .ldDtVx _ => 0xF015
  | .ldStVx _ => 0xF018 | .addIVx _ => 0xF01E | .ldFVx _ => 0xF029 | .ldBVx _ => 0xF033
  | .ldMemVx _ => 0xF055 | .ldVxMem _ => 0xF065

end Sys2Proof
end

