-- ==== Sys2Proof/Config.lean ====
section
/-! DEFINITION. What an implementation fixes (the named parameters of 00_scope.md R10) and the free values. The
parameters are plain data, carried by the machine's state so that every setting is modelled; their default values are
in Sys2Proof/Machine/Defaults.lean. -/

namespace Sys2Proof

/-- `VF_ALIAS_MODE`: the order in which 8xy4 to 8xyE write the result and the flag (41_alu.md R157). -/
inductive VfAliasMode where
  /-- The effect column run as written: VF first, and the result reads the registers after that write. -/
  | sequential
  /-- Every operand is read first, the result is written, then the flag. -/
  | flagLast
deriving DecidableEq, Repr

/-- `FX1E_VF`: whether Fx1E records a 12-bit overflow in VF (42_index_memory.md R181). -/
inductive Fx1eVf where
  | unchanged
  | overflowFlag
deriving DecidableEq, Repr

/-- `LOADSTORE_I`: whether Fx55 and Fx65 advance I (42_index_memory.md R184, R185). -/
inductive LoadStoreI where
  | unchanged
  | increment
deriving DecidableEq, Repr

/-- `KEY_INDEX_POLICY`: what SKP and SKNP do with a register value of 16 or more (44_timers_keys.md R220). -/
inductive KeyIndexPolicy where
  | fault
  | lowNibble
  | notPressed
deriving DecidableEq, Repr

/-- `FONT_DATA`: 80 bytes, 16 glyphs of 5 bytes (20_memory.md R76). -/
abbrev FontData := Vector Byte 80

/-- The settings of 00_scope.md R10, fixed for the life of one machine. -/
structure Config where
  vfAliasMode : VfAliasMode
  fx1eVf : Fx1eVf
  loadStoreI : LoadStoreI
  keyIndexPolicy : KeyIndexPolicy
  font : FontData
deriving DecidableEq, Repr

/-- `RANDOM_SOURCE`: the byte the random source supplies at draw number `n` (10_state.md R65, 41_alu.md R163). A free
value: the spec gives it no law, and nothing in Lean can evaluate it (log 2). -/
opaque Config.randomByte : Nat → Byte

/-- `KEYWAIT_SELECT`: which of the pressed keys a key wait takes at draw number `n`, as a position in the list of
pressed keys, reduced by that list's length (44_timers_keys.md R226). A free value (log 3). -/
opaque Config.keySelect : Nat → Nat

end Sys2Proof
end

