-- ==== Sys2Proof/Machine/Defaults.lean ====
section
/-! DEFINITION. The default values of the parameters (00_scope.md R10). -/

namespace Sys2Proof.Machine

/-- The 16 glyphs of the default font, in order (20_memory.md R76: the conventional font, which the spec marks as
general knowledge; log 6). -/
def defaultGlyphs : List (List Byte) :=
  [ [0xF0, 0x90, 0x90, 0x90, 0xF0],
    [0x20, 0x60, 0x20, 0x20, 0x70],
    [0xF0, 0x10, 0xF0, 0x80, 0xF0],
    [0xF0, 0x10, 0xF0, 0x10, 0xF0],
    [0x90, 0x90, 0xF0, 0x10, 0x10],
    [0xF0, 0x80, 0xF0, 0x10, 0xF0],
    [0xF0, 0x80, 0xF0, 0x90, 0xF0],
    [0xF0, 0x10, 0x20, 0x40, 0x40],
    [0xF0, 0x90, 0xF0, 0x90, 0xF0],
    [0xF0, 0x90, 0xF0, 0x10, 0xF0],
    [0xF0, 0x90, 0xF0, 0x90, 0x90],
    [0xE0, 0x90, 0xE0, 0x90, 0xE0],
    [0xF0, 0x80, 0x80, 0x80, 0xF0],
    [0xE0, 0x90, 0x90, 0x90, 0xE0],
    [0xF0, 0x80, 0xF0, 0x80, 0xF0],
    [0xF0, 0x80, 0xF0, 0x80, 0x80] ]

/-- The default `FONT_DATA`: glyph `d` at positions `5 d` to `5 d + 4`. -/
def defaultFont : FontData :=
  Vector.ofFn fun j => ((defaultGlyphs.getD (j.val / 5) []).getD (j.val % 5) 0)

/-- The default settings (00_scope.md R10). -/
def defaultConfig : Config :=
  { vfAliasMode := .sequential
    fx1eVf := .unchanged
    loadStoreI := .unchanged
    keyIndexPolicy := .fault
    font := defaultFont }

end Sys2Proof.Machine
end

