-- ==== Sys2Proof/Machine/State.lean ====
section
/-! DEFINITION. The state of the core (10_state.md R30), the reasons a step can stop, and the state after reset
(R51). -/

namespace Sys2Proof.Machine

/-- `MEM`: the bytes that differ from what memory holds after reset, by rising address (`Memory.wf`, Machine/Ops.lean;
log 7). -/
abbrev Memory := List Host.Cell

/-- `FB[0..63][0..31]`: one bit a cell, column then row (10_state.md R41). -/
abbrev Framebuffer := Vector (Vector Bool 32) 64

/-- `RUN`: the machine states (10_state.md R43). Code 3, which the spec says is never held, is no value (log 13). -/
inductive RunState where
  /-- code 0 -/
  | running
  /-- code 1 -/
  | waitingForKey
  /-- code 2 -/
  | halted
deriving DecidableEq, Repr

/-- The causes that halt the machine (10_state.md R45, 60_exceptions.md R240). -/
inductive FaultCause where
  /-- code 1: CALL with a full stack -/
  | stackOverflow
  /-- code 2: RET with an empty stack -/
  | stackUnderflow
  /-- code 3: SKP or SKNP with a register value of 16 or more, under `KEY_INDEX_POLICY = fault` -/
  | keyIndexRange
deriving DecidableEq, Repr

/-- The state of the core. The fields from `mem` to `loaded` are the tuple of 10_state.md R30; `cfg` and `draws` are
the model's own (log 1, log 4). -/
structure State where
  /-- `MEM[0..4095]` (R70) -/
  mem : Memory
  /-- `V[0..15]` (R31) -/
  v : Vector Byte 16
  /-- `I` (R34) -/
  i : Addr
  /-- `PC` (R35) -/
  pc : Addr
  /-- `STACK[0..15]` (R37) -/
  stack : Vector Addr 16
  /-- `SP`, 0 to 16 (R37) -/
  sp : Fin 17
  /-- `DT` (R40) -/
  dt : Byte
  /-- `ST` (R40) -/
  st : Byte
  /-- `FB` (R41) -/
  fb : Framebuffer
  /-- `KEY[0..15]`, true = pressed (R42) -/
  key : Vector Bool 16
  /-- `RUN` (R43) -/
  run : RunState
  /-- `WAITREG` (R44) -/
  waitreg : Reg
  /-- `FAULT`; `none` is the spec's code 0 (R45) -/
  fault : Option FaultCause
  /-- `LOADED` (R46) -/
  loaded : Bool
  /-- the settings of 00_scope.md R10, which no transaction changes -/
  cfg : Config
  /-- how many draws have been taken: the index of the next free value -/
  draws : Nat
deriving DecidableEq, Repr

/-- The ways a step can stop with a fault: none. A fault of the spec leads to the Halted machine, in which ticks, key
changes and reads go on (60_exceptions.md R242, R244; 93_implementation_defined.md U15), so it is a next state; no
memory access faults (20_memory.md R71) and no encoding is undefined (30_encoding.md R105). Safe: the type is empty,
so nothing raises it (log 11). -/
inductive Fault where
deriving DecidableEq, Repr

/-- The ways a transaction is turned away: it has no meaning in the spec. -/
inductive Refusal where
  /-- Raised by an arm of `exec` whose instruction has no meaning yet; no arm is left so. Safe: nothing is claimed. -/
  | notModelled (mnemonic : String)
  /-- Raised by `step` while `LOADED = 0` (60_exceptions.md R259). Safe: the spec refuses the transaction. -/
  | stepBeforeLoad
  /-- Raised by the transaction `load` while `LOADED = 1` (R259). Safe: the spec refuses the transaction. -/
  | loadAfterLoad
  /-- Raised by the transaction `set_key` with an index outside 0 to 15 (R259). Safe: the spec refuses it. -/
  | keyOutsideRange
deriving DecidableEq, Repr

/-- The state a reset leaves (10_state.md R51, 70_reset_and_hazards.md R270; log 8), for given settings and a given number of
draws already taken. Memory lists nothing: every byte is as at reset. -/
def State.resetWith (cfg : Config) (draws : Nat) : State :=
  { mem := []
    v := Vector.replicate 16 0
    i := 0
    pc := 0x200
    stack := Vector.replicate 16 0
    sp := 0
    dt := 0
    st := 0
    fb := Vector.replicate 64 (Vector.replicate 32 false)
    key := Vector.replicate 16 false
    run := .running
    waitreg := 0
    fault := none
    loaded := false
    cfg := cfg
    draws := draws }

/-- The machine right after its first reset, with the default settings (00_scope.md R10). -/
def State.reset : State := State.resetWith defaultConfig 0

end Sys2Proof.Machine
end

