-- ==== Sys2Proof/Machine/Ops.lean ====
section
/-! DEFINITION. The named operations over memory, registers, the stack, the machine state, the framebuffer and the
draws. Every meaning is written over these. -/

namespace Sys2Proof.Machine

/-! ## Memory (20_memory.md) -/

/-- What an unlisted address reads as: the reset contents, `FONT_DATA` at 0 to 79 and 0 above (20_memory.md R76, R77;
10_state.md R51). -/
def Memory.unlisted (font : FontData) (a : Nat) : Byte := font.toList.getD a 0

/-- The byte listed at an address. -/
def Memory.lookup : Memory → Nat → Option Byte
  | [], _ => none
  | (k, b) :: m, a => if k = a then some b else Memory.lookup m a

/-- One byte read: the byte last written there, or the reset contents (20_memory.md R79, R81). -/
def Memory.read (font : FontData) (m : Memory) (a : Nat) : Byte :=
  (Memory.lookup m a).getD (Memory.unlisted font a)

/-- List a byte at an address, keeping the addresses rising. -/
def Memory.insert (a : Nat) (b : Byte) : Memory → Memory
  | [] => [(a, b)]
  | (k, c) :: m =>
    if a < k then (a, b) :: (k, c) :: m
    else if a = k then (a, b) :: m
    else (k, c) :: Memory.insert a b m

/-- Take an address off the list. -/
def Memory.erase (a : Nat) : Memory → Memory
  | [] => []
  | (k, c) :: m => if k = a then m else (k, c) :: Memory.erase a m

/-- One byte write. Writing what the address reads as unlisted takes its entry off. -/
def Memory.write (font : FontData) (m : Memory) (a : Nat) (b : Byte) : Memory :=
  if b = Memory.unlisted font a then Memory.erase a m else Memory.insert a b m

/-- The addresses of a list rise strictly, start at `lo` or above, stay below 4096, and no entry equals the reset
contents. -/
def Memory.wfFrom (font : FontData) : Nat → Memory → Bool
  | _, [] => true
  | lo, (k, b) :: m =>
    decide (lo ≤ k) && decide (k < 4096) && decide (b ≠ Memory.unlisted font k) && Memory.wfFrom font (k + 1) m

/-- The canonical form of memory: equal memories are equal lists. -/
abbrev Memory.wf (font : FontData) (m : Memory) : Prop := Memory.wfFrom font 0 m = true

/-- `MEM[a]`; a 12-bit address is always in range (20_memory.md R71). -/
def State.readByte (s : State) (a : Addr) : Byte := Memory.read s.cfg.font s.mem a.toNat

/-- `MEM[a] <- b` (20_memory.md R70). -/
def State.writeByte (s : State) (a : Addr) (b : Byte) : State :=
  { s with mem := Memory.write s.cfg.font s.mem a.toNat b }

/-- Bytes written one after another at increasing addresses from `a`, each address reduced mod 4096 (00_scope.md R14
`MemWrite`). -/
def State.writeBytes (s : State) (a : Addr) : List Byte → State
  | [] => s
  | b :: bs => State.writeBytes (s.writeByte a b) (a + 1#12) bs

/-- The word at PC, big-endian, the second address wrapped (30_encoding.md R101). -/
def State.fetchWord (s : State) : Word := wordOfBytes (s.readByte s.pc) (s.readByte (s.pc + 1#12))

/-! ## Registers (00_scope.md R14) -/

/-- VF, the flag register (10_state.md R32). -/
abbrev VF : Reg := 15

/-- `V[x]`. -/
def State.getV (s : State) (x : Reg) : Byte := s.v[x]

/-- `V[x] <- b`. -/
def State.setV (s : State) (x : Reg) (b : Byte) : State := { s with v := s.v.set x.val b x.isLt }

/-- `I <- a`. -/
def State.setI (s : State) (a : Addr) : State := { s with i := a }

/-- `pc <- a`. -/
def State.setPc (s : State) (a : Addr) : State := { s with pc := a }

/-- `DT <- b` (10_state.md R40). -/
def State.setDt (s : State) (b : Byte) : State := { s with dt := b }

/-- `ST <- b` (10_state.md R40). -/
def State.setSt (s : State) (b : Byte) : State := { s with st := b }

/-- The default advance `pc <- PC + 2` (30_encoding.md R102, 40_control_flow.md R140). -/
def State.advance (s : State) : State := s.setPc (s.pc + 2#12)

/-- A skip: `pc <- PC + 4` when the condition holds, else `PC + 2` (30_encoding.md R102, 40_control_flow.md R140). -/
def State.skipIf (s : State) (c : Bool) : State := s.setPc (if c then s.pc + 4#12 else s.pc + 2#12)

/-! ## The call stack (10_state.md R37 to R39) -/

/-- `push(a)` (R38). -/
def State.push (s : State) (a : Addr) : Except FaultCause State :=
  if h : s.sp.val < 16 then
    .ok { s with stack := s.stack.set s.sp.val a h, sp := ⟨s.sp.val + 1, by omega⟩ }
  else .error .stackOverflow

/-- `pop()`: the shortened stack and the entry taken; the entry's old value stays in its place (R39, log 14). -/
def State.pop (s : State) : Except FaultCause (State × Addr) :=
  if h : 0 < s.sp.val then
    .ok ({ s with sp := ⟨s.sp.val - 1, by omega⟩ }, s.stack[s.sp.val - 1]'(by omega))
  else .error .stackUnderflow

/-! ## Taking a fault (60_exceptions.md R242, R243). There is no return from one (R245). -/

/-- `raise Fault(c)`: the cause is recorded and the machine halts; PC stays at the faulting instruction and nothing
else is written. -/
def State.raiseFault (s : State) (c : FaultCause) : State := { s with fault := some c, run := .halted }

/-- A word that is no instruction: the cycle is skipped (30_encoding.md R103, 60_exceptions.md R246). -/
def State.decodeFailure (s : State) : State := s.advance

/-! ## Draws (10_state.md R65; the free values of Config) -/

/-- One draw more has been taken. -/
def State.nextDraw (s : State) : State := { s with draws := s.draws + 1 }

/-- The byte the random source supplies to the execution at hand. -/
def State.randomByte (s : State) : Byte := Config.randomByte s.draws

/-! ## Keys (44_timers_keys.md R224 to R226) -/

/-- `KEY[k]`. -/
def State.keyDown (s : State) (k : Reg) : Bool := s.key[k]

/-- The pressed keys, by rising index. -/
def State.pressedKeys (s : State) : List Reg := (List.finRange 16).filter s.keyDown

/-- The choice among the pressed keys: `draw` reduced by their number picks one; with a single key there is nothing to
choose (R226). -/
def chooseKey (draw : Nat) : List Reg → Option Reg
  | [] => none
  | [k] => some k
  | k :: k' :: ks => some ((k :: k' :: ks).getD (draw % (ks.length + 2)) k)

/-- The key a wait takes at this step, or none when no key is pressed (R224, R226). -/
def State.selectedKey (s : State) : Option Reg := chooseKey (Config.keySelect s.draws) s.pressedKeys

/-- A pressed key taken: the draw is taken, the key's index goes to `V[x]` and PC goes past the Fx0A (R224, R225). -/
def State.takeKey (s : State) (x k : Reg) : State := (s.nextDraw.setV x (BitVec.ofNat 8 k.val)).advance

/-- A key wait that ends: the key goes to `V[WAITREG]` and the machine is Running (R225). -/
def State.completeWait (s : State) (k : Reg) : State := { (s.takeKey s.waitreg k) with run := .running }

/-- Fx0A with no key pressed: WAITREG holds the register, the machine waits, PC is not written (R224). -/
def State.enterWait (s : State) (x : Reg) : State := { s with waitreg := x, run := .waitingForKey }

/-- The poll of a waiting machine: no fetch, only `KEY` is read (R225). -/
def State.keywaitPoll (s : State) : State :=
  match s.selectedKey with
  | some k => s.completeWait k
  | none => s

/-! ## The framebuffer and the sprite engine (43_display.md) -/

/-- `FB[c][r]`. -/
def Framebuffer.get (fb : Framebuffer) (c : Fin 64) (r : Fin 32) : Bool := fb[c][r]

/-- `FB[c][r] <- b`. -/
def Framebuffer.put (fb : Framebuffer) (c : Fin 64) (r : Fin 32) (b : Bool) : Framebuffer :=
  fb.set c.val (fb[c].set r.val b r.isLt) c.isLt

/-- `clear()` (R200). -/
def Framebuffer.cleared : Framebuffer := Vector.replicate 64 (Vector.replicate 32 false)

/-- The column of the cell that column `c` of a sprite at `x0` falls on (R201). -/
def spriteCol (x0 : Byte) (c : Nat) : Fin 64 := ⟨(x0.toNat + c) % 64, Nat.mod_lt _ (by decide)⟩

/-- The row of the cell that row `r` of a sprite at `y0` falls on (R201). -/
def spriteRow (y0 : Byte) (r : Nat) : Fin 32 := ⟨(y0.toNat + r) % 32, Nat.mod_lt _ (by decide)⟩

/-- One bit of a sprite: a 1 is XORed into its cell and collides if the cell held 1; a 0 leaves it (R201). -/
def drawBit (c : Fin 64) (r : Fin 32) (bit : Bool) (acc : Framebuffer × Bool) : Framebuffer × Bool :=
  if bit then
    (Framebuffer.put acc.1 c r (Framebuffer.get acc.1 c r ^^ true), acc.2 || Framebuffer.get acc.1 c r)
  else acc

/-- Row `r` of a sprite, its columns from `c` on, `n` of them: column 0 is bit 7 of the row byte (R201). -/
def drawRow (x0 y0 : Byte) (r : Nat) (row : Byte) : (c n : Nat) → Framebuffer × Bool → Framebuffer × Bool
  | _, 0, acc => acc
  | c, n + 1, acc =>
    drawRow x0 y0 r row (c + 1) n (drawBit (spriteCol x0 c) (spriteRow y0 r) (row.getLsbD (7 - c)) acc)

/-- The rows of a sprite from row `r` on (R201). -/
def drawRows (x0 y0 : Byte) : (r : Nat) → List Byte → Framebuffer × Bool → Framebuffer × Bool
  | _, [], acc => acc
  | r, row :: rows, acc => drawRows x0 y0 (r + 1) rows (drawRow x0 y0 r row 0 8 acc)

/-- `draw_sprite(x0, y0, rows)`: the framebuffer after and the collision flag (R201, R202). -/
def drawSprite (fb : Framebuffer) (x0 y0 : Byte) (rows : List Byte) : Framebuffer × Bool :=
  drawRows x0 y0 0 rows (fb, false)

/-- `FB <- fb`. -/
def State.setFb (s : State) (fb : Framebuffer) : State := { s with fb := fb }

end Sys2Proof.Machine
end

