-- ==== Sys2Proof/Machine/Operands.lean ====
section
/-! DEFINITION. The operand forms beyond a plain register or immediate field (30_encoding.md R93, R94;
42_index_memory.md R186; 44_timers_keys.md R220). -/

namespace Sys2Proof.Machine

/-- The address `I + j`, mod 4096: the only data addressing mode (42_index_memory.md R186). -/
def State.indirect (s : State) (j : Nat) : Addr := s.i + BitVec.ofNat 12 j

/-- A register's byte as an addend of an address: zero-extended (30_encoding.md R93). -/
def zext12 (b : Byte) : Addr := b.setWidth 12

/-- The target of JP V0: `nnn + V[0]`, mod 4096 (40_control_flow.md R138). -/
def State.v0Target (s : State) (nnn : Addr) : Addr := nnn + zext12 (s.getV 0)

/-- The address of the glyph of a register's whole value: `V[x] × 5` (42_index_memory.md R182). -/
def glyphAddr (b : Byte) : Addr := zext12 b * 5#12

/-- The three decimal digits, hundreds first (42_index_memory.md R183). -/
def bcdDigits (b : Byte) : List Byte := [b / 100, b / 10 % 10, b % 10]

/-- The low nibble of a byte as a key number. -/
def lowNibble (b : Byte) : Reg := (b.extractLsb' 0 4).toFin

/-- `keyidx(v)`: the key a register's value names, no key (one that is never pressed), or the fault of the default
policy (44_timers_keys.md R220). -/
def keyidx (p : KeyIndexPolicy) (b : Byte) : Except FaultCause (Option Reg) :=
  if h : b.toNat < 16 then .ok (some ⟨b.toNat, h⟩)
  else
    match p with
    | .fault => .error .keyIndexRange
    | .lowNibble => .ok (some (lowNibble b))
    | .notPressed => .ok none

/-- Whether the key named by `keyidx` is pressed; no key is never pressed. -/
def State.keyNamedDown (s : State) : Option Reg → Bool
  | some k => s.keyDown k
  | none => false

/-- The `n` bytes from I on, the sprite of Dxyn (43_display.md R204). -/
def State.spriteRows (s : State) (n : Nat) : List Byte := (List.range n).map fun r => s.readByte (s.indirect r)

/-- Store `V[0]` to `V[n - 1]` at I on, in increasing order (42_index_memory.md R184). -/
def State.storeRegs (s : State) : Nat → State
  | 0 => s
  | n + 1 =>
    let t := s.storeRegs n
    t.writeByte (t.indirect n) (t.getV (Fin.ofNat 16 n))

/-- Load `V[0]` to `V[n - 1]` from I on, in increasing order (42_index_memory.md R185). -/
def State.loadRegs (s : State) : Nat → State
  | 0 => s
  | n + 1 =>
    let t := s.loadRegs n
    t.setV (Fin.ofNat 16 n) (t.readByte (t.indirect n))

/-- `if LOADSTORE_I = increment: I <- I + n` (42_index_memory.md R184, R185). -/
def State.postIncrement (s : State) (n : Nat) : State :=
  match s.cfg.loadStoreI with
  | .unchanged => s
  | .increment => s.setI (s.i + BitVec.ofNat 12 n)

end Sys2Proof.Machine
end

