-- ==== Sys2Proof/Machine/Flags.lean ====
section
/-! DEFINITION. The flag computations and the two orders in which VF and the result are written (41_alu.md R150,
R157 to R162; 42_index_memory.md R181; 43_display.md R204). -/

namespace Sys2Proof.Machine

/-- What VF receives for a flag: 1 or 0. -/
def flagByte (f : Bool) : Byte := if f then 1 else 0

/-- The carry of an 8-bit addition: `a + b > 255` (41_alu.md R150). -/
def carry (a b : Byte) : Bool := decide (255 < a.toNat + b.toNat)

/-- The NOT-borrow of `a − b`: strictly `a > b` (41_alu.md R150). -/
def notBorrow (a b : Byte) : Bool := decide (b.toNat < a.toNat)

/-- The bit a right shift by one drops, bit 0 (41_alu.md R160). -/
def shiftedOutRight (a : Byte) : Bool := a.getLsbD 0

/-- The bit a left shift by one drops, bit 7 (41_alu.md R162). -/
def shiftedOutLeft (a : Byte) : Bool := a.getLsbD 7

/-- The overflow of the 12-bit addition of Fx1E: the sum is above 0xFFF (42_index_memory.md R181). -/
def indexOverflow (i : Addr) (b : Byte) : Bool := decide (0xFFF < i.toNat + b.toNat)

/-- `V[15] <- flag ? 1 : 0`. -/
def State.setFlag (s : State) (f : Bool) : State := s.setV VF (flagByte f)

/-- Write the flag, taken from the operands before any write, and the result to `V[x]`, in the order of
`VF_ALIAS_MODE` (41_alu.md R157). `result` gives the result from the registers as they stand: after the flag's write
under `sequential`, before any write under `flag_last`. -/
def State.writeFlagged (s : State) (x : Reg) (f : Bool) (result : State → Byte) : State :=
  match s.cfg.vfAliasMode with
  | .sequential => (s.setFlag f).setV x (result (s.setFlag f))
  | .flagLast => (s.setV x (result s)).setFlag f

/-- `if FX1E_VF = overflow_flag: V[15] <- flag` (42_index_memory.md R181). -/
def State.setIndexFlag (s : State) (f : Bool) : State :=
  match s.cfg.fx1eVf with
  | .unchanged => s
  | .overflowFlag => s.setFlag f

end Sys2Proof.Machine
end

