-- ==== Sys2Proof/Machine/Alu.lean ====
section
/-! DEFINITION. The meanings of the register loads and the arithmetic (41_alu.md). Every one ends with the default
advance. -/

namespace Sys2Proof.Machine

/-- LD Vx, kk (R151). -/
def execLd (x : Reg) (kk : Byte) (s : State) : Host.Outcome State Fault Refusal := .next (s.setV x kk).advance

/-- ADD Vx, kk: no flag (R152). -/
def execAdd (x : Reg) (kk : Byte) (s : State) : Host.Outcome State Fault Refusal :=
  .next (s.setV x (s.getV x + kk)).advance

/-- LD Vx, Vy (R153). -/
def execLdReg (x y : Reg) (s : State) : Host.Outcome State Fault Refusal := .next (s.setV x (s.getV y)).advance

/-- OR Vx, Vy: no flag (R154). -/
def execOrReg (x y : Reg) (s : State) : Host.Outcome State Fault Refusal :=
  .next (s.setV x (s.getV x ||| s.getV y)).advance

/-- AND Vx, Vy: no flag (R155). -/
def execAndReg (x y : Reg) (s : State) : Host.Outcome State Fault Refusal :=
  .next (s.setV x (s.getV x &&& s.getV y)).advance

/-- XOR Vx, Vy: no flag (R156). -/
def execXorReg (x y : Reg) (s : State) : Host.Outcome State Fault Refusal :=
  .next (s.setV x (s.getV x ^^^ s.getV y)).advance

/-- ADD Vx, Vy: the sum is taken before any write, under both orders (R158). -/
def execAddReg (x y : Reg) (s : State) : Host.Outcome State Fault Refusal :=
  .next (s.writeFlagged x (carry (s.getV x) (s.getV y)) fun _ => s.getV x + s.getV y).advance

/-- SUB Vx, Vy (R159). -/
def execSub (x y : Reg) (s : State) : Host.Outcome State Fault Refusal :=
  .next (s.writeFlagged x (notBorrow (s.getV x) (s.getV y)) fun t => t.getV x - t.getV y).advance

/-- SHR Vx: Vy is not read (R160). -/
def execShr (x _y : Reg) (s : State) : Host.Outcome State Fault Refusal :=
  .next (s.writeFlagged x (shiftedOutRight (s.getV x)) fun t => t.getV x >>> 1).advance

/-- SUBN Vx, Vy (R161). -/
def execSubn (x y : Reg) (s : State) : Host.Outcome State Fault Refusal :=
  .next (s.writeFlagged x (notBorrow (s.getV y) (s.getV x)) fun t => t.getV y - t.getV x).advance

/-- SHL Vx: Vy is not read (R162). -/
def execShl (x _y : Reg) (s : State) : Host.Outcome State Fault Refusal :=
  .next (s.writeFlagged x (shiftedOutLeft (s.getV x)) fun t => t.getV x <<< 1).advance

/-- RND Vx, kk: one draw for each execution (R163, 10_state.md R65; log 2). -/
def execRnd (x : Reg) (kk : Byte) (s : State) : Host.Outcome State Fault Refusal :=
  .next (s.nextDraw.setV x (s.randomByte &&& kk)).advance

end Sys2Proof.Machine
end

