-- ==== Sys2Proof/Machine/Display.lean ====
section
/-! DEFINITION. The meanings of the display family (43_display.md). -/

namespace Sys2Proof.Machine

/-- CLS (R200, R203). -/
def execCls (s : State) : Host.Outcome State Fault Refusal := .next (s.setFb Framebuffer.cleared).advance

/-- DRW Vx, Vy, n: the coordinates are read before VF is written; the sprite is the `n` bytes from I on; VF is written
on every DRW (R204, R205). -/
def execDrw (x y : Reg) (n : BitVec 4) (s : State) : Host.Outcome State Fault Refusal :=
  let drawn := drawSprite s.fb (s.getV x) (s.getV y) (s.spriteRows n.toNat)
  .next ((s.setFb drawn.1).setFlag drawn.2).advance

end Sys2Proof.Machine
end

