-- ==== Sys2Proof/Machine/Index.lean ====
section
/-! DEFINITION. The meanings of the index register and memory transfer family (42_index_memory.md). Every one ends
with the default advance. -/

namespace Sys2Proof.Machine

/-- LD I, nnn (R180). -/
def execLdI (nnn : Addr) (s : State) : Host.Outcome State Fault Refusal := .next (s.setI nnn).advance

/-- ADD I, Vx: `V[x]` is read before any write (R181). -/
def execAddIVx (x : Reg) (s : State) : Host.Outcome State Fault Refusal :=
  .next (((s.setI (s.i + zext12 (s.getV x))).setIndexFlag (indexOverflow s.i (s.getV x))).advance)

/-- LD F, Vx: the whole of `V[x]`, not its low nibble (R182). -/
def execLdFVx (x : Reg) (s : State) : Host.Outcome State Fault Refusal := .next (s.setI (glyphAddr (s.getV x))).advance

/-- LD B, Vx: hundreds, tens, units at I, I + 1, I + 2 (R183). -/
def execLdBVx (x : Reg) (s : State) : Host.Outcome State Fault Refusal :=
  .next (s.writeBytes s.i (bcdDigits (s.getV x))).advance

/-- LD [I], Vx: `x + 1` bytes (R184). -/
def execLdMemVx (x : Reg) (s : State) : Host.Outcome State Fault Refusal :=
  .next (((s.storeRegs (x.val + 1)).postIncrement (x.val + 1)).advance)

/-- LD Vx, [I]: `x + 1` bytes (R185). -/
def execLdVxMem (x : Reg) (s : State) : Host.Outcome State Fault Refusal :=
  .next (((s.loadRegs (x.val + 1)).postIncrement (x.val + 1)).advance)

end Sys2Proof.Machine
end

