-- ==== Sys2Proof/Machine/KeysTimers.lean ====
section
/-! DEFINITION. The meanings of the keys and timers family (44_timers_keys.md). -/

namespace Sys2Proof.Machine

/-- SKP Vx: skip if the key is pressed (R221). -/
def execSkp (x : Reg) (s : State) : Host.Outcome State Fault Refusal :=
  match keyidx s.cfg.keyIndexPolicy (s.getV x) with
  | .ok k => .next (s.skipIf (s.keyNamedDown k))
  | .error c => .next (s.raiseFault c)

/-- SKNP Vx: skip if the key is not pressed (R222). -/
def execSknp (x : Reg) (s : State) : Host.Outcome State Fault Refusal :=
  match keyidx s.cfg.keyIndexPolicy (s.getV x) with
  | .ok k => .next (s.skipIf (!s.keyNamedDown k))
  | .error c => .next (s.raiseFault c)

/-- LD Vx, DT (R223). -/
def execLdVxDt (x : Reg) (s : State) : Host.Outcome State Fault Refusal := .next (s.setV x s.dt).advance

/-- LD Vx, K: a key already held completes it in the same step; otherwise the machine waits (R224). -/
def execLdVxK (x : Reg) (s : State) : Host.Outcome State Fault Refusal :=
  match s.selectedKey with
  | some k => .next (s.takeKey x k)
  | none => .next (s.enterWait x)

/-- LD DT, Vx (R227). -/
def execLdDtVx (x : Reg) (s : State) : Host.Outcome State Fault Refusal := .next (s.setDt (s.getV x)).advance

/-- LD ST, Vx (R228). -/
def execLdStVx (x : Reg) (s : State) : Host.Outcome State Fault Refusal := .next (s.setSt (s.getV x)).advance

end Sys2Proof.Machine
end

