-- ==== Sys2Proof/Machine/Step.lean ====
section
/-! DEFINITION. One `step` transaction (30_encoding.md R100), and placing an instruction where it fetches. -/

namespace Sys2Proof.Machine

/-- `step()`: refused before a program is loaded; nothing while Halted; one poll while waiting for a key; otherwise
fetch, decode, execute (30_encoding.md R100, R101, R103, R104). -/
def step (s : State) : Host.Outcome State Fault Refusal :=
  if s.loaded then
    match s.run with
    | .halted => .next s
    | .waitingForKey => .next s.keywaitPoll
    | .running =>
      match decode s.fetchWord with
      | .ok i => exec i s
      | .error _ => .next s.decodeFailure
  else .refused .stepBeforeLoad

/-- The instruction whose bits are `w`, stored where the next step fetches, in a machine that is loaded and Running, so
that the very next step runs it. It stands for the `load` transaction (log 5). -/
def State.withFetchWord (s : State) (nbits w : Nat) : State :=
  { (s.writeBytes s.pc [hiByte (tableWord nbits w), loByte (tableWord nbits w)]) with loaded := true, run := .running }

end Sys2Proof.Machine
end

