-- ==== Sys2Proof/Machine/Assembler.lean ====
section
/-! DEFINITION. The assembly notation: operand syntax, directives, labels and disassembly (30_encoding.md R106 to R108).
It changes no behaviour of the core (92_eei_decisions.md D21). Text is a list of characters; what the rules leave open
of the notation is log 16. -/

namespace Sys2Proof.Machine

/-! ## Abstract syntax -/

/-- The mnemonics of R106. -/
inductive Mnemonic where
  | cls | ret | sys | jp | call | se | sne | ld | add | or | and | xor | sub | shr | subn | shl | rnd | drw | skp | sknp
deriving DecidableEq, Repr

/-- The spelling of each mnemonic. -/
def mnemonicNames : List (List Char × Mnemonic) :=
  [ ("CLS".toList, .cls), ("RET".toList, .ret), ("SYS".toList, .sys), ("JP".toList, .jp), ("CALL".toList, .call),
    ("SE".toList, .se), ("SNE".toList, .sne), ("LD".toList, .ld), ("ADD".toList, .add), ("OR".toList, .or),
    ("AND".toList, .and), ("XOR".toList, .xor), ("SUB".toList, .sub), ("SHR".toList, .shr), ("SUBN".toList, .subn),
    ("SHL".toList, .shl), ("RND".toList, .rnd), ("DRW".toList, .drw), ("SKP".toList, .skp), ("SKNP".toList, .sknp) ]

/-- An operand: a register, a number, a label, or one of the fixed names (30_encoding.md R94, R106). -/
inductive AsmOperand where
  | reg (x : Reg)
  | num (n : Nat)
  | label (name : List Char)
  | i | dt | st | k | f | b | memI
deriving DecidableEq, Repr

/-- What a line may hold: an instruction, or a directive (R107). -/
inductive AsmItem where
  | instr (m : Mnemonic) (ops : List AsmOperand)
  | db (bytes : List Nat)
  | dw (words : List Nat)
  | org (a : AsmOperand)
deriving DecidableEq, Repr

/-- A line: an optional label, an optional item. -/
structure AsmLine where
  label : Option (List Char)
  item : Option AsmItem
deriving DecidableEq, Repr

/-! ## Reading text -/

/-- The hexadecimal digits by value. -/
def hexDigits : List Char := "0123456789ABCDEF".toList

/-- The value of a hexadecimal digit of either case: its place among the digits. -/
def hexDigit (c : Char) : Option Nat := hexDigits.idxOf? c.toUpper

/-- The value of digits in a base, after the digits already read. -/
def readDigits (base : Nat) : Nat → List Char → Option Nat
  | acc, [] => some acc
  | acc, c :: cs =>
    match hexDigit c with
    | some d => if d < base then readDigits base (acc * base + d) cs else none
    | none => none

/-- A number: `0x` and hexadecimal digits, or decimal digits (R106). -/
def readNumber : List Char → Option Nat
  | '0' :: 'x' :: c :: cs => readDigits 16 0 (c :: cs)
  | [] => none
  | cs => readDigits 10 0 cs

/-- Whether a character may begin an identifier. -/
def identStart (c : Char) : Bool := c.isAlpha || c == '_'

/-- Whether a character may go on an identifier. -/
def identChar (c : Char) : Bool := identStart c || c.isDigit

/-- Whether a text is an identifier (R107). -/
def isIdent : List Char → Bool
  | [] => false
  | c :: cs => identStart c && cs.all identChar

/-- A register operand, `V0` to `VF`, of either case (R106). -/
def readReg : List Char → Option Reg
  | [v, d] =>
    if v = 'V' ∨ v = 'v' then
      match hexDigit d with
      | some n => if h : n < 16 then some ⟨n, h⟩ else none
      | none => none
    else none
  | _ => none

/-- The operands with a fixed name (R94). -/
def fixedOperands : List (List Char × AsmOperand) :=
  [ ("I".toList, .i), ("DT".toList, .dt), ("ST".toList, .st), ("K".toList, .k), ("F".toList, .f), ("B".toList, .b),
    ("[I]".toList, .memI) ]

/-- One operand. A fixed name or a register name is never a label. -/
def readOperand (cs : List Char) : Option AsmOperand :=
  match readReg cs with
  | some x => some (.reg x)
  | none =>
    match fixedOperands.lookup cs with
    | some o => some o
    | none =>
      match readNumber cs with
      | some n => some (.num n)
      | none => if isIdent cs then some (.label cs) else none

/-- White space within a line. -/
def isBlank (c : Char) : Bool := c == ' ' || c == '\t' || c == '\r'

/-- The text without the white space before and after it. -/
def trim (cs : List Char) : List Char := ((cs.dropWhile isBlank).reverse.dropWhile isBlank).reverse

/-- The pieces of a text between occurrences of a character. -/
def splitAtChar (sep : Char) : List Char → List (List Char)
  | [] => [[]]
  | c :: cs =>
    if c = sep then [] :: splitAtChar sep cs
    else
      match splitAtChar sep cs with
      | [] => [[c]]
      | p :: ps => (c :: p) :: ps

/-- The operands of a line, separated by commas (R106). -/
def readList {α : Type} (read : List Char → Option α) (cs : List Char) : Option (List α) :=
  if trim cs = [] then some [] else ((splitAtChar ',' cs).map fun p => read (trim p)).mapM id

/-- An instruction or a directive: a name, white space, its operands. -/
def readItem (cs : List Char) : Option AsmItem :=
  let name := cs.takeWhile fun c => !isBlank c
  let rest := cs.dropWhile fun c => !isBlank c
  if name = "DB".toList then (readList readNumber rest).map .db
  else if name = "DW".toList then (readList readNumber rest).map .dw
  else if name = "ORG".toList then (readOperand (trim rest)).map .org
  else
    match mnemonicNames.lookup name with
    | some m => (readList readOperand rest).map (.instr m)
    | none => none

/-- An item where there is text, nothing where there is none. -/
def readItem? (cs : List Char) : Option (Option AsmItem) :=
  if cs = [] then some none else (readItem cs).map some

/-- A line: a comment runs from `;` to its end (R106), a label is an identifier followed by `:` (R107). -/
def readLine (line : List Char) : Option AsmLine :=
  let cs := trim (line.takeWhile (· ≠ ';'))
  let name := cs.takeWhile identChar
  match cs.dropWhile identChar with
  | ':' :: rest =>
    if isIdent name then (readItem? (trim rest)).map fun it => { label := some name, item := it } else none
  | _ => (readItem? cs).map fun it => { label := none, item := it }

/-- The lines of a text. -/
def readLines (text : List Char) : Option (List AsmLine) := ((splitAtChar '\n' text).map readLine).mapM id

/-! ## Assembling -/

/-- The labels and their addresses; `none` while the address is not known. DESIGN CHOICE: R106 and R107 do not say whether
names that differ only in case are one label; here labels are compared character by character, so they are two (log
16). -/
abbrev Symbols := List (List Char × Option Nat)

/-- An address operand: a number 0 to 0xFFF or a label (R106). DESIGN CHOICE: R106 and R107 do not say what a label stands
for whose own address is 0x1000 or above, as after a byte at 0xFFF; here it is no address operand, so the text gives no
assembly, and it does not wrap mod 4096 (log 16). A label is found by its exact characters, case included (log 16). -/
def asAddr (sym : Symbols) : AsmOperand → Option Addr
  | .num n => if n < 4096 then some (BitVec.ofNat 12 n) else none
  | .label name =>
    match sym.lookup name with
    | some (some n) => if n < 4096 then some (BitVec.ofNat 12 n) else none
    | _ => none
  | _ => none

/-- A byte operand: a number 0 to 255 (R106). -/
def asByte : AsmOperand → Option Byte
  | .num n => if n < 256 then some (BitVec.ofNat 8 n) else none
  | _ => none

/-- A nibble operand: a number 0 to 15 (R106). -/
def asNibble : AsmOperand → Option (BitVec 4)
  | .num n => if n < 16 then some (BitVec.ofNat 4 n) else none
  | _ => none

/-- The instruction a mnemonic and its operands stand for (R106). Without a second operand SHR and SHL have y = 0. -/
def buildInstr (sym : Symbols) (m : Mnemonic) (ops : List AsmOperand) : Option Instr :=
  match m, ops with
  | .cls, [] => some .cls
  | .ret, [] => some .ret
  | .sys, [a] => (asAddr sym a).map .sys
  | .jp, [a] => (asAddr sym a).map .jp
  | .jp, [.reg x, a] => if x = 0 then (asAddr sym a).map .jpV0 else none
  | .call, [a] => (asAddr sym a).map .call
  | .se, [.reg x, .reg y] => some (.seReg x y)
  | .se, [.reg x, a] => (asByte a).map (.se x)
  | .sne, [.reg x, .reg y] => some (.sneReg x y)
  | .sne, [.reg x, a] => (asByte a).map (.sne x)
  | .ld, [.reg x, .reg y] => some (.ldReg x y)
  | .ld, [.reg x, .dt] => some (.ldVxDt x)
  | .ld, [.reg x, .k] => some (.ldVxK x)
  | .ld, [.reg x, .memI] => some (.ldVxMem x)
  | .ld, [.reg x, a] => (asByte a).map (.ld x)
  | .ld, [.i, a] => (asAddr sym a).map .ldI
  | .ld, [.dt, .reg x] => some (.ldDtVx x)
  | .ld, [.st, .reg x] => some (.ldStVx x)
  | .ld, [.f, .reg x] => some (.ldFVx x)
  | .ld, [.b, .reg x] => some (.ldBVx x)
  | .ld, [.memI, .reg x] => some (.ldMemVx x)
  | .add, [.reg x, .reg y] => some (.addReg x y)
  | .add, [.i, .reg x] => some (.addIVx x)
  | .add, [.reg x, a] => (asByte a).map (.add x)
  | .or, [.reg x, .reg y] => some (.orReg x y)
  | .and, [.reg x, .reg y] => some (.andReg x y)
  | .xor, [.reg x, .reg y] => some (.xorReg x y)
  | .sub, [.reg x, .reg y] => some (.sub x y)
  | .subn, [.reg x, .reg y] => some (.subn x y)
  | .shr, [.reg x] => some (.shr x 0)
  | .shr, [.reg x, .reg y] => some (.shr x y)
  | .shl, [.reg x] => some (.shl x 0)
  | .shl, [.reg x, .reg y] => some (.shl x y)
  | .rnd, [.reg x, a] => (asByte a).map (.rnd x)
  | .drw, [.reg x, .reg y, a] => (asNibble a).map (.drw x y)
  | .skp, [.reg x] => some (.skp x)
  | .sknp, [.reg x] => some (.sknp x)
  | _, _ => none

/-- A word as bytes, big-endian (R107). -/
def wordBytes (w : Word) : List Byte := [hiByte w, loByte w]

/-- How many bytes an item emits. -/
def AsmItem.size : AsmItem → Nat
  | .instr _ _ => 2
  | .db bs => bs.length
  | .dw ws => 2 * ws.length
  | .org _ => 0

/-- The address after an item at `here`, where it is known: an ORG goes to its address operand, whatever stands before
it (R106, R107). -/
def AsmItem.next (sym : Symbols) (here : Option Nat) : AsmItem → Option Nat
  | .org a => (asAddr sym a).map BitVec.toNat
  | it => here.map (· + it.size)

/-- The bytes an item emits, or none where an operand is out of range or the instruction has no such form. -/
def AsmItem.bytes (sym : Symbols) : AsmItem → Option (List Byte)
  | .instr m ops =>
    match buildInstr sym m ops with
    | some i => if i.wellFormed then some (wordBytes (encode i)) else none
    | none => none
  | .db bs => if bs.all (· < 256) then some (bs.map (BitVec.ofNat 8)) else none
  | .dw ws => if ws.all (· < 65536) then some ((ws.map fun w => wordBytes (BitVec.ofNat 16 w)).flatten) else none
  | .org a => (asAddr sym a).map fun _ => []

/-- One pass over the lines: a label stands for the address of what follows it (R107), an ORG of a label reading the
labels known so far. DESIGN CHOICE: R107 does not say which address that is for a label directly before an ORG, on its
line or on the line after; here it is the address before the ORG takes effect (log 16). -/
def collectLabels (sym : Symbols) : Option Nat → List AsmLine → Symbols
  | _, [] => []
  | here, l :: ls =>
    let after := match l.item with
      | some it => it.next sym here
      | none => here
    match l.label with
    | some name => (name, here) :: collectLabels sym after ls
    | none => collectLabels sym after ls

/-- The labels after some passes, each over what the one before it knew. -/
def labelPasses (ls : List AsmLine) : Nat → Symbols
  | 0 => []
  | n + 1 => collectLabels (labelPasses ls n) (some 0x200) ls

/-- The labels of a text. Each pass settles one ORG more, so one pass more than there are lines settles every label whose
address does not depend on itself. -/
def resolveLabels (ls : List AsmLine) : Symbols := labelPasses ls (ls.length + 1)

/-- Bytes at rising addresses. -/
def cellsFrom (here : Nat) : List Byte → List Host.Cell
  | [] => []
  | b :: bs => (here, b) :: cellsFrom (here + 1) bs

/-- The last pass: the bytes with their addresses, in the order of the text. DESIGN CHOICE: R107 does not say what
becomes of a byte above 0xFFF or of two bytes at one address, which an ORG or a long DB can bring about; here each byte
is emitted with its address, which may be 4096 or more, and none is dropped (log 16). -/
def emitLines (sym : Symbols) : Nat → List AsmLine → Option (List Host.Cell)
  | _, [] => some []
  | here, l :: ls =>
    match l.item with
    | none => emitLines sym here ls
    | some it =>
      match it.bytes sym, it.next sym (some here) with
      | some bs, some after => (emitLines sym after ls).map (cellsFrom here bs ++ ·)
      | _, _ => none

/-- Assemble lines from 0x200 (R107). -/
def assembleLines (ls : List AsmLine) : Option (List Host.Cell) := emitLines (resolveLabels ls) 0x200 ls

/-- Assemble a text. -/
def assemble (text : List Char) : Option (List Host.Cell) :=
  match readLines text with
  | some ls => assembleLines ls
  | none => none

/-! ## Disassembling (R108) -/

/-- The mnemonic of an instruction (R106). -/
def instrMnemonic : Instr → Mnemonic
  | .cls => .cls | .ret => .ret | .sys _ => .sys | .jp _ | .jpV0 _ => .jp | .call _ => .call
  | .se _ _ | .seReg _ _ => .se
  | .sne _ _ | .sneReg _ _ => .sne
  | .ld _ _ | .ldReg _ _ | .ldI _ | .ldVxDt _ | .ldVxK _ | .ldDtVx _ | .ldStVx _ | .ldFVx _ | .ldBVx _ => .ld
  | .ldMemVx _ | .ldVxMem _ => .ld
  | .add _ _ | .addReg _ _ | .addIVx _ => .add
  | .orReg _ _ => .or | .andReg _ _ => .and | .xorReg _ _ => .xor | .sub _ _ => .sub | .shr _ _ => .shr
  | .subn _ _ => .subn | .shl _ _ => .shl | .rnd _ _ => .rnd | .drw _ _ _ => .drw | .skp _ => .skp | .sknp _ => .sknp

/-- The operands of an instruction (R106); SHR and SHL show y where it is not 0. -/
def instrOperands : Instr → List AsmOperand
  | .cls | .ret => []
  | .sys nnn | .jp nnn | .call nnn => [.num nnn.toNat]
  | .jpV0 nnn => [.reg 0, .num nnn.toNat]
  | .ldI nnn => [.i, .num nnn.toNat]
  | .se x kk | .sne x kk | .ld x kk | .add x kk | .rnd x kk => [.reg x, .num kk.toNat]
  | .seReg x y | .sneReg x y | .ldReg x y | .orReg x y | .andReg x y | .xorReg x y => [.reg x, .reg y]
  | .addReg x y | .sub x y | .subn x y => [.reg x, .reg y]
  | .shr x y | .shl x y => if y = 0 then [.reg x] else [.reg x, .reg y]
  | .drw x y n => [.reg x, .reg y, .num n.toNat]
  | .skp x | .sknp x => [.reg x]
  | .ldVxDt x => [.reg x, .dt]
  | .ldVxK x => [.reg x, .k]
  | .ldDtVx x => [.dt, .reg x]
  | .ldStVx x => [.st, .reg x]
  | .addIVx x => [.i, .reg x]
  | .ldFVx x => [.f, .reg x]
  | .ldBVx x => [.b, .reg x]
  | .ldMemVx x => [.memI, .reg x]
  | .ldVxMem x => [.reg x, .memI]

/-- A hexadecimal digit, capital. -/
def digitChar (n : Nat) : Char := hexDigits.getD n '0'

/-- The low `digits` hexadecimal digits of a number, after `0x`. -/
def hexText (digits n : Nat) : List Char :=
  '0' :: 'x' :: ((List.range digits).map fun j => digitChar (n / 16 ^ (digits - 1 - j) % 16))

/-- An operand's text; a number takes the digits of its width. -/
def AsmOperand.text (digits : Nat) : AsmOperand → List Char
  | .reg x => ['V', digitChar x.val]
  | .num n => hexText digits n
  | .label name => name
  | .i => "I".toList | .dt => "DT".toList | .st => "ST".toList | .k => "K".toList | .f => "F".toList
  | .b => "B".toList | .memI => "[I]".toList

/-- How many hexadecimal digits an instruction's number is written with: three for an address, two for a byte, one for
a nibble. -/
def instrDigits : Instr → Nat
  | .sys _ | .jp _ | .call _ | .jpV0 _ | .ldI _ => 3
  | .drw _ _ _ => 1
  | .se _ _ | .sne _ _ | .ld _ _ | .add _ _ | .rnd _ _ => 2
  | .cls | .ret | .seReg _ _ | .sneReg _ _ | .ldReg _ _ | .orReg _ _ | .andReg _ _ | .xorReg _ _ | .addReg _ _ => 2
  | .sub _ _ | .subn _ _ | .shr _ _ | .shl _ _ | .skp _ | .sknp _ | .ldVxDt _ | .ldVxK _ | .ldDtVx _ => 2
  | .ldStVx _ | .addIVx _ | .ldFVx _ | .ldBVx _ | .ldMemVx _ | .ldVxMem _ => 2

/-- The spelling of a mnemonic. -/
def Mnemonic.text (m : Mnemonic) : List Char := ((mnemonicNames.find? fun p => p.2 = m).map (·.1)).getD []

/-- The text of an instruction: its mnemonic, a space, its operands separated by commas. -/
def instrText (i : Instr) : List Char :=
  match instrOperands i with
  | [] => (instrMnemonic i).text
  | o :: os =>
    (instrMnemonic i).text ++ ' ' :: (o.text (instrDigits i) ++ (os.map fun p => ", ".toList ++ p.text (instrDigits i)).flatten)

/-- The text of a word: an instruction, or `DW 0xhhhh` for a decode failure (R108). -/
def disassemble (w : Word) : List Char :=
  match decode w with
  | .ok i => instrText i
  | .error _ => "DW ".toList ++ hexText 4 w.toNat

end Sys2Proof.Machine
end

