-- ==== Sys2Proof/Machine/Transactions.lean ====
section
/-! DEFINITION. The host's transactions (10_state.md R55 to R67): each is one atomic change of the state with a result.
The machine's `step` (Machine/Step.lean) is the transaction `step`. -/

namespace Sys2Proof.Machine

/-! ## The step's result (10_state.md R59). It is computed from the states before and after, and held in none (R49,
log 10). -/

/-- What a step returns. -/
inductive StepResult where
  | executed
  | waiting
  | decodeFailure (w : Word)
  | faulted (c : FaultCause)
  | halted (c : Option FaultCause)
deriving DecidableEq, Repr

/-- The result of the step that took `s` to `t` (R59, 30_encoding.md R100, R104). -/
def stepResult (s t : State) : StepResult :=
  match s.run with
  | .halted => .halted s.fault
  | .waitingForKey => if s.selectedKey.isSome then .executed else .waiting
  | .running =>
    match decode s.fetchWord with
    | .error _ => .decodeFailure s.fetchWord
    | .ok _ =>
      match t.run, t.fault with
      | .halted, some c => .faulted c
      | .waitingForKey, _ => .waiting
      | _, _ => .executed

/-- What the optional log of a decode failure would carry for the next step: the word and PC (30_encoding.md R103). It
is an output and nothing reads it (10_state.md R49). -/
def State.failureLog (s : State) : Option (Word × Addr) :=
  match s.loaded, s.run, decode s.fetchWord with
  | true, .running, .error _ => some (s.fetchWord, s.pc)
  | _, _, _ => none

/-! ## The other transactions -/

/-- `reset()` in any state (70_reset_and_hazards.md R270): every piece of the spec's state at its reset value. The
settings stay, and the draws already taken stay taken (log 4). -/
def State.restart (s : State) : State := State.resetWith s.cfg s.draws

/-- The largest program: 4096 − 0x200 bytes (00_scope.md R9). -/
def maxProgram : Nat := 4096 - 0x200

/-- What `load` returns (10_state.md R57). -/
inductive LoadResult where
  | ok
  | romTooLarge
deriving DecidableEq, Repr

/-- The bytes of a program copied from 0x200 on, and `LOADED` set (70_reset_and_hazards.md R272). -/
def State.loadRom (s : State) (rom : List Byte) : State := { (s.writeBytes 0x200 rom) with loaded := true }

/-- A counter's tick: one down unless it is 0 (60_exceptions.md R251). -/
def tickDown (b : Byte) : Byte := if b = 0 then 0 else b - 1

/-- `tick_timers()`, in every machine state (60_exceptions.md R251, R253). -/
def State.tick (s : State) : State := (s.setDt (tickDown s.dt)).setSt (tickDown s.st)

/-- `KEY[k] <- pressed` (10_state.md R61). -/
def State.setKey (s : State) (k : Reg) (pressed : Bool) : State := { s with key := s.key.set k.val pressed k.isLt }

/-- The tone-active output: `ST ≠ 0` (10_state.md R63, 60_exceptions.md R252). -/
def State.toneActive (s : State) : Bool := s.st != 0

/-- The names of the state the debug port reads (10_state.md R30, R64). -/
inductive StateName where
  | mem (a : Addr)
  | v (x : Reg)
  | i
  | pc
  | stack (j : Fin 16)
  | sp
  | dt
  | st
  | fb (c : Fin 64) (r : Fin 32)
  | key (k : Reg)
  | run
  | waitreg
  | fault
  | loaded
deriving DecidableEq, Repr

/-- The code of a machine state (10_state.md R43). -/
def RunState.code : RunState → Nat
  | .running => 0
  | .waitingForKey => 1
  | .halted => 2

/-- The code of `FAULT` (10_state.md R45). -/
def faultCode : Option FaultCause → Nat
  | none => 0
  | some .stackOverflow => 1
  | some .stackUnderflow => 2
  | some .keyIndexRange => 3

/-- The debug read port (10_state.md R64). -/
def State.debugRead (s : State) : StateName → Nat
  | .mem a => (s.readByte a).toNat
  | .v x => (s.getV x).toNat
  | .i => s.i.toNat
  | .pc => s.pc.toNat
  | .stack j => s.stack[j].toNat
  | .sp => s.sp.val
  | .dt => s.dt.toNat
  | .st => s.st.toNat
  | .fb c r => (Framebuffer.get s.fb c r).toNat
  | .key k => (s.keyDown k).toNat
  | .run => s.run.code
  | .waitreg => s.waitreg.val
  | .fault => faultCode s.fault
  | .loaded => s.loaded.toNat

/-- The transactions the driver issues (10_state.md R55). -/
inductive Transaction where
  | reset
  | load (rom : List Byte)
  | step
  | tickTimers
  | setKey (k : Nat) (pressed : Bool)
  | framebufferSnapshot
  | isToneActive
  | debugRead (name : StateName)
deriving DecidableEq, Repr

/-- What a transaction returns (10_state.md R55, R66). -/
inductive Response where
  | nothing
  | load (r : LoadResult)
  | step (r : StepResult)
  | snapshot (fb : Framebuffer)
  | tone (active : Bool)
  | value (n : Nat)
deriving DecidableEq, Repr

/-- One transaction: the state after and its result, or a refusal (60_exceptions.md R259). -/
def transact (x : Transaction) (s : State) : Host.Outcome (State × Response) Fault Refusal :=
  match x with
  | .reset => .next (s.restart, .nothing)
  | .load rom =>
    if s.loaded then .refused .loadAfterLoad
    else if maxProgram < rom.length then .next (s, .load .romTooLarge)
    else .next (s.loadRom rom, .load .ok)
  | .step =>
    match step s with
    | .next t => .next (t, .step (stepResult s t))
    | .fault f => .fault f
    | .refused r => .refused r
  | .tickTimers => .next (s.tick, .nothing)
  | .setKey k pressed =>
    if h : k < 16 then .next (s.setKey ⟨k, h⟩ pressed, .nothing) else .refused .keyOutsideRange
  | .framebufferSnapshot => .next (s, .snapshot s.fb)
  | .isToneActive => .next (s, .tone s.toneActive)
  | .debugRead name => .next (s, .value (s.debugRead name))

/-- Any list of transactions, one at a time in the driver's order (10_state.md R55, R67), with their results. -/
def runTransactions : List Transaction → State → Host.Outcome (State × List Response) Fault Refusal
  | [], s => .next (s, [])
  | x :: xs, s =>
    match transact x s with
    | .next (t, r) =>
      match runTransactions xs t with
      | .next (u, rs) => .next (u, r :: rs)
      | .fault f => .fault f
      | .refused e => .refused e
    | .fault f => .fault f
    | .refused e => .refused e

end Sys2Proof.Machine
end

