-- ==== Sys2Proof/Machine/Arbiter.lean ====
section
/-! DEFINITION. The memory arbiter: the byte accesses of each transaction, in the order the one port serves them
(20_memory.md R75, R80, R81). -/

namespace Sys2Proof.Machine

/-- One request at the port: every access is one byte wide (20_memory.md R75). -/
inductive Access where
  | read (a : Addr)
  | write (a : Addr) (b : Byte)
deriving DecidableEq, Repr

/-- Byte writes at increasing addresses from `a`. -/
def writesFrom (a : Addr) : List Byte → List Access
  | [] => []
  | b :: bs => .write a b :: writesFrom (a + 1#12) bs

/-- The execute-phase accesses of an instruction (20_memory.md R75). -/
def State.execAccesses (s : State) : Instr → List Access
  | .drw _ _ n => (List.range n.toNat).map fun r => .read (s.indirect r)
  | .ldBVx x => writesFrom s.i (bcdDigits (s.getV x))
  | .ldMemVx x => (List.range (x.val + 1)).map fun j => .write (s.indirect j) (s.getV (Fin.ofNat 16 j))
  | .ldVxMem x => (List.range (x.val + 1)).map fun j => .read (s.indirect j)
  | .cls | .ret | .sys _ | .jp _ | .call _ | .se _ _ | .sne _ _ | .seReg _ _ | .ld _ _ | .add _ _ => []
  | .ldReg _ _ | .orReg _ _ | .andReg _ _ | .xorReg _ _ | .addReg _ _ | .sub _ _ | .shr _ _ | .subn _ _ => []
  | .shl _ _ | .sneReg _ _ | .ldI _ | .jpV0 _ | .rnd _ _ | .skp _ | .sknp _ | .ldVxDt _ | .ldVxK _ => []
  | .ldDtVx _ | .ldStVx _ | .addIVx _ | .ldFVx _ => []

/-- The accesses of a step: the two fetch reads, then those of the instruction; a waiting or halted machine makes none
(20_memory.md R80, 30_encoding.md R100). -/
def State.stepAccesses (s : State) : List Access :=
  match s.loaded, s.run with
  | true, .running =>
    .read s.pc :: .read (s.pc + 1#12) ::
      (match decode s.fetchWord with
        | .ok i => s.execAccesses i
        | .error _ => [])
  | _, _ => []

/-- The accesses of a transaction (20_memory.md R75, R80). Reset is no requester at the port: it gives memory its
reset contents (log 17). -/
def State.accesses (s : State) : Transaction → List Access
  | .step => s.stepAccesses
  | .load rom => if s.loaded || decide (maxProgram < rom.length) then [] else writesFrom 0x200 rom
  | .debugRead (.mem a) => [.read a]
  | .debugRead _ | .reset | .tickTimers | .setKey _ _ | .framebufferSnapshot | .isToneActive => []

/-- The port serving one request: the state after and, for a read, the byte. A read changes nothing (20_memory.md
R79). -/
def State.serve (s : State) : Access → State × Option Byte
  | .read a => (s, some (s.readByte a))
  | .write a b => (s.writeByte a b, none)

/-- The port serving requests one at a time, in order: the state after and the bytes read (20_memory.md R80, R81). -/
def State.serveAll (s : State) : List Access → State × List Byte
  | [] => (s, [])
  | q :: qs =>
    let r := s.serve q
    let rest := r.1.serveAll qs
    (rest.1, r.2.toList ++ rest.2)

end Sys2Proof.Machine
end

