-- ==== Sys2Proof/Safety.lean ====
section
/-! DEFINITION. The terms claims are stated in: the invariant, how a run ends, safe runs, and what an instruction
leaves unchanged. -/

namespace Sys2Proof.Machine

/-! ## The invariant -/

/-- What every state the machine reaches satisfies: memory is in its canonical form; a cause is recorded exactly while
the machine is Halted (60_exceptions.md R242, 10_state.md R45); only a loaded machine waits or is Halted (10_state.md
R46). -/
structure State.Inv (s : State) : Prop where
  mem_wf : Memory.wf s.cfg.font s.mem
  halted_iff : s.run = .halted ↔ s.fault.isSome = true
  loaded_of_not_running : s.run ≠ .running → s.loaded = true

/-! ## How a run ends (70_reset_and_hazards.md R278, R279) -/

/-- The end condition "faulted". -/
def State.Faulted (s : State) : Prop := s.run = .halted

/-- The end condition "parked at e": Running, PC = e, and memory at e holds JP to e itself. -/
def State.ParkedAt (e : Addr) (s : State) : Prop := s.run = .running ∧ s.pc = e ∧ s.fetchWord = formA 0x1#4 e

/-- A hang, no final condition: waiting, with no key pressed (R279). -/
def State.Hung (s : State) : Prop := s.run = .waitingForKey ∧ ∀ k : Reg, s.keyDown k = false

/-- A safe run: no transaction of it is refused and it does not end Halted (Halted is left only by reset, R245). -/
def SafeRun (xs : List Transaction) (s : State) : Prop :=
  ∃ t rs, runTransactions xs s = .next (t, rs) ∧ t.run ≠ .halted

/-! ## After reset -/

/-- Every piece of the spec's state at the value of 10_state.md R51, for given settings. -/
structure State.AtReset (cfg : Config) (s : State) : Prop where
  v : ∀ x : Reg, s.getV x = 0
  i : s.i = 0
  pc : s.pc = 0x200
  sp : s.sp.val = 0
  stack : ∀ j : Fin 16, s.stack[j] = 0
  dt : s.dt = 0
  st : s.st = 0
  fb : ∀ c r, Framebuffer.get s.fb c r = false
  key : ∀ k : Reg, s.keyDown k = false
  font : ∀ (a : Addr) (h : a.toNat < 80), s.readByte a = cfg.font[a.toNat]
  rest : ∀ a : Addr, 80 ≤ a.toNat → s.readByte a = 0
  run : s.run = .running
  waitreg : s.waitreg = 0
  fault : s.fault = none
  loaded : s.loaded = false
  cfg_kept : s.cfg = cfg

/-! ## What a program can observe -/

/-- Two states that differ at most in what no instruction reads: the stack entries at SP and above (10_state.md R37,
93_implementation_defined.md U13) and WAITREG while the machine does not wait (R44, U14). -/
def SameVisible (s t : State) : Prop :=
  t = { s with stack := t.stack, waitreg := t.waitreg } ∧
  (∀ j : Fin 16, j.val < s.sp.val → t.stack[j] = s.stack[j]) ∧
  (s.run = .waitingForKey → t.waitreg = s.waitreg)

/-! ## Instruction words as numbers (30_encoding.md R91, R92) -/

/-- The word `op nnn`. -/
def wordA (op : Nat) (nnn : Addr) : Word := BitVec.ofNat 16 (op * 4096 + nnn.toNat)

/-- The word `op x kk`. -/
def wordXK (op : Nat) (x : Reg) (kk : Nat) : Word := BitVec.ofNat 16 (op * 4096 + x.val * 256 + kk)

/-- The word `op x y n`. -/
def wordXYN (op : Nat) (x y : Reg) (n : Nat) : Word := BitVec.ofNat 16 (op * 4096 + x.val * 256 + y.val * 16 + n)

/-! ## A step's result -/

/-- Where a Running machine fetches `i` and goes from `s` to `t`, the step returns `r` (10_state.md R59). -/
def Returns (r : StepResult) (i : Instr) (s t : State) : Prop :=
  s.run = .running → decode s.fetchWord = .ok i → stepResult s t = r

/-! ## Who writes what -/

/-- Whether `i` is one of the writers of `V[r]`, as an operand or as the flag (10_state.md R32, R33). -/
def writesV (cfg : Config) (r : Reg) : Instr → Bool
  | .ld x _ | .add x _ | .ldReg x _ | .orReg x _ | .andReg x _ | .xorReg x _ | .rnd x _ | .ldVxDt x | .ldVxK x => r == x
  | .addReg x _ | .sub x _ | .shr x _ | .subn x _ | .shl x _ => r == x || r == VF
  | .drw _ _ _ => r == VF
  | .addIVx _ => r == VF && cfg.fx1eVf == .overflowFlag
  | .ldVxMem x => decide (r ≤ x)
  | .cls | .ret | .sys _ | .jp _ | .call _ | .se _ _ | .sne _ _ | .seReg _ _ | .sneReg _ _ | .ldI _ | .jpV0 _ => false
  | .skp _ | .sknp _ | .ldDtVx _ | .ldStVx _ | .ldFVx _ | .ldBVx _ | .ldMemVx _ => false

/-- Whether `i` is one of the writers of I (10_state.md R34). -/
def writesI (cfg : Config) : Instr → Bool
  | .ldI _ | .addIVx _ | .ldFVx _ => true
  | .ldMemVx _ | .ldVxMem _ => cfg.loadStoreI == .increment
  | .cls | .ret | .sys _ | .jp _ | .call _ | .se _ _ | .sne _ _ | .seReg _ _ | .sneReg _ _ | .jpV0 _ => false
  | .ld _ _ | .add _ _ | .ldReg _ _ | .orReg _ _ | .andReg _ _ | .xorReg _ _ | .rnd _ _ => false
  | .addReg _ _ | .sub _ _ | .shr _ _ | .subn _ _ | .shl _ _ | .drw _ _ _ => false
  | .skp _ | .sknp _ | .ldVxDt _ | .ldVxK _ | .ldDtVx _ | .ldStVx _ | .ldBVx _ => false

/-- Whether `i` can take a fault (60_exceptions.md R240). -/
def canFault : Instr → Bool
  | .ret | .call _ | .skp _ | .sknp _ => true
  | .cls | .sys _ | .jp _ | .se _ _ | .sne _ _ | .seReg _ _ | .sneReg _ _ | .ldI _ | .jpV0 _ => false
  | .ld _ _ | .add _ _ | .ldReg _ _ | .orReg _ _ | .andReg _ _ | .xorReg _ _ | .rnd _ _ => false
  | .addReg _ _ | .sub _ _ | .shr _ _ | .subn _ _ | .shl _ _ | .drw _ _ _ => false
  | .ldVxDt _ | .ldVxK _ | .ldDtVx _ | .ldStVx _ | .addIVx _ | .ldFVx _ | .ldBVx _ | .ldMemVx _ | .ldVxMem _ => false

/-! ## Sprites (43_display.md R201) -/

/-- A 1 bit of the sprite `rows` at (x0, y0) falls on the cell (c, r): bit `7 − k` of row `j` is 1, the cell's column is
`(x0 + k) mod 64` and its row is `(y0 + j) mod 32`. -/
def SpriteCovers (x0 y0 : Byte) (rows : List Byte) (c : Fin 64) (r : Fin 32) : Prop :=
  ∃ j k row, rows[j]? = some row ∧ k < 8 ∧ row.getLsbD (7 - k) = true ∧
    c.val = (x0.toNat + k) % 64 ∧ r.val = (y0.toNat + j) % 32

/-! ## What stays unchanged (the frame of an instruction) -/

/-- Every byte of memory reads as before. -/
def SameMem (s t : State) : Prop := ∀ a : Addr, t.readByte a = s.readByte a

/-- Every byte of memory outside the `n` bytes from `a` on (mod 4096) reads as before. -/
def SameMemOutside (a : Addr) (n : Nat) (s t : State) : Prop :=
  ∀ b : Addr, (∀ j < n, b ≠ a + BitVec.ofNat 12 j) → t.readByte b = s.readByte b

/-- Every general register but those listed is as before. -/
def SameRegsBut (xs : List Reg) (s t : State) : Prop := ∀ r : Reg, r ∉ xs → t.getV r = s.getV r

/-- The call stack is as before. -/
def SameStack (s t : State) : Prop := t.sp = s.sp ∧ t.stack = s.stack

/-- Both timers are as before. -/
def SameTimers (s t : State) : Prop := t.dt = s.dt ∧ t.st = s.st

/-- The screen is as before. -/
def SameScreen (s t : State) : Prop := ∀ c r, Framebuffer.get t.fb c r = Framebuffer.get s.fb c r

/-- The machine state registers RUN, WAITREG, FAULT and LOADED are as before. -/
def SameMachine (s t : State) : Prop :=
  t.run = s.run ∧ t.waitreg = s.waitreg ∧ t.fault = s.fault ∧ t.loaded = s.loaded

/-- The key vector and the settings are as before. -/
def SameInputs (s t : State) : Prop := t.key = s.key ∧ t.cfg = s.cfg

/-- No draw was taken. -/
def NoDraw (s t : State) : Prop := t.draws = s.draws

/-- Everything but the general registers, I and PC is as before. -/
def SameButRegs (s t : State) : Prop :=
  SameMem s t ∧ SameStack s t ∧ SameTimers s t ∧ SameScreen s t ∧ SameMachine s t ∧ SameInputs s t ∧ NoDraw s t

/-- Everything but PC is as before: only the program counter may have changed. -/
def SameButPc (s t : State) : Prop := SameRegsBut [] s t ∧ t.i = s.i ∧ SameButRegs s t

/-- Everything but I and PC is as before. -/
def SameButIndex (s t : State) : Prop := SameRegsBut [] s t ∧ SameButRegs s t

/-- Everything but memory, I and PC is as before. -/
def SameButMem (s t : State) : Prop :=
  SameRegsBut [] s t ∧ SameStack s t ∧ SameTimers s t ∧ SameScreen s t ∧ SameMachine s t ∧ SameInputs s t ∧ NoDraw s t

/-- Everything but the call stack and PC is as before. -/
def SameButStack (s t : State) : Prop :=
  SameRegsBut [] s t ∧ t.i = s.i ∧ SameMem s t ∧ SameTimers s t ∧ SameScreen s t ∧ SameMachine s t ∧ SameInputs s t ∧
    NoDraw s t

/-- Everything but the machine state registers is as before, PC included. -/
def SameButMachine (s t : State) : Prop :=
  SameRegsBut [] s t ∧ t.i = s.i ∧ t.pc = s.pc ∧ SameMem s t ∧ SameStack s t ∧ SameTimers s t ∧ SameScreen s t ∧
    SameInputs s t ∧ NoDraw s t

/-- The machine took the fault `c`: it is Halted with that cause, and nothing else changed (60_exceptions.md R242,
R243). -/
def TookFault (c : FaultCause) (s t : State) : Prop :=
  t.run = .halted ∧ t.fault = some c ∧ t.waitreg = s.waitreg ∧ t.loaded = s.loaded ∧ SameButMachine s t

/-- `t` follows `s` by the default advance: PC + 2 mod 4096 (40_control_flow.md R140). -/
def Advanced (s t : State) : Prop := t.pc.toNat = (s.pc.toNat + 2) % 4096

/-- `t` follows `s` by a skip: PC + 4 mod 4096 (40_control_flow.md R140). -/
def Skipped (s t : State) : Prop := t.pc.toNat = (s.pc.toNat + 4) % 4096

end Sys2Proof.Machine
end

