-- ==== Sys2Proof/Certificates/Slice0/Obligations.lean ====
section
/-! DEFINITION. The statements for the provers. "derived" statements name the decision or the log entry they rest on. -/

open Sys2Proof Sys2Proof.Machine

/-! ## Encoding -/

/-- Every well-formed instruction is read back from its own word, with every operand (30_encoding.md R95, R99). -/
def Obligations.DecodeInvertsEncode : Prop := ∀ i : Instr, i.WellFormed → decode (encode i) = .ok i

/-- Every word that is an instruction is the word of that instruction, which is well-formed: one meaning a word
(30_encoding.md R96, R105). -/
def Obligations.EncodeInvertsDecode : Prop := ∀ (w : Word) (i : Instr), decode w = .ok i → i.WellFormed ∧ encode i = w

/-- The words that are no instruction are those of the five spaces of 30_encoding.md R97 (decision D8), each rejected
under the name of its space. -/
def Obligations.DecodeRejectsExactlyTheFiveSpaces : Prop :=
  ∀ w : Word,
    let op := w.toNat / 4096
    let n := w.toNat % 16
    let kk := w.toNat % 256
    (decode w = .error .family5 ↔ op = 5 ∧ n ≠ 0) ∧
    (decode w = .error .family8 ↔ op = 8 ∧ n ∈ [8, 9, 0xA, 0xB, 0xC, 0xD, 0xF]) ∧
    (decode w = .error .family9 ↔ op = 9 ∧ n ≠ 0) ∧
    (decode w = .error .familyE ↔ op = 0xE ∧ kk ∉ [0x9E, 0xA1]) ∧
    (decode w = .error .familyF ↔ op = 0xF ∧ kk ∉ [0x07, 0x0A, 0x15, 0x18, 0x1E, 0x29, 0x33, 0x55, 0x65])

/-- Words written out from the spec's encodings decode to the instruction they stand for; among them the three kinds of
family-0 words (30_encoding.md R95, R96; 95_test_vectors.md V-DEC). -/
def Obligations.DecodeReadsSampleWords : Prop :=
  decode 0x00E0 = .ok .cls ∧ decode 0x00EE = .ok .ret ∧ decode 0x00E1 = .ok (.sys 0x0E1) ∧
  decode 0x0000 = .ok (.sys 0) ∧ decode 0x2ABC = .ok (.call 0xABC) ∧ decode 0x3A42 = .ok (.se 10 0x42) ∧
  decode 0x8AB4 = .ok (.addReg 10 11) ∧ decode 0x840E = .ok (.shl 4 0) ∧ decode 0xA123 = .ok (.ldI 0x123) ∧
  decode 0xD015 = .ok (.drw 0 1 5) ∧ decode 0xE39E = .ok (.skp 3) ∧ decode 0xF50A = .ok (.ldVxK 5) ∧
  decode 0xF155 = .ok (.ldMemVx 1) ∧ decode 0x5121 = .error .family5 ∧ decode 0xF0FF = .error .familyF

/-- A word decodes to an instruction only where it holds every fixed bit of that instruction's row of the opcode table
(30_encoding.md R92). -/
def Obligations.DecodedWordMatchesItsTableRow : Prop :=
  ∀ (w : Word) (i : Instr), decode w = .ok i → w &&& i.tableMask = i.tableMatch

/-- The assembler makes every well-formed instruction from its own mnemonic and operands, as abstract syntax, under any
labels (30_encoding.md R106, decision D21; log 16). -/
def Obligations.AssemblerBuildsEveryInstruction : Prop :=
  ∀ (sym : Symbols) (i : Instr), i.WellFormed → buildInstr sym (instrMnemonic i) (instrOperands i) = some i

/-- Text and words agree (30_encoding.md R106 to R108, decision D21; log 16): the text of every word, assembled, is that
word at 0x200, high byte first; a word that is no instruction is printed as DW with four digits, and a SYS word as SYS
with three. -/
def Obligations.AssembledTextIsTheWord : Prop :=
  (∀ w : Word, assemble (disassemble w) = some [(0x200, hiByte w), (0x201, loByte w)]) ∧
  (∀ (w : Word) (e : DecodeReject), decode w = .error e →
    ∃ ds, ds.length = 4 ∧ disassemble w = "DW 0x".toList ++ ds) ∧
  (∀ nnn : Addr, nnn ≠ 0x0E0#12 → nnn ≠ 0x0EE#12 →
    ∃ ds, ds.length = 3 ∧ disassemble (wordA 0x0 nnn) = "SYS 0x".toList ++ ds)

/-! ## The step -/

/-- A loaded, Running machine whose two bytes at PC are the word of an instruction runs exactly that instruction; the
step adds nothing around it (30_encoding.md R100, R101, R104; the PC convention is decision D9). -/
def Obligations.StepRunsTheDecodedInstruction : Prop :=
  ∀ (s : State) (i : Instr), s.loaded = true → s.run = .running → i.WellFormed →
    decode (wordOfBytes (s.readByte s.pc) (s.readByte (s.pc + 1#12))) = .ok i → step s = exec i s

/-- The same with the bytes themselves: where they are those of a well-formed instruction's word, high byte first, the
step is that instruction. -/
def Obligations.StepRunsEncodedBytes : Prop :=
  ∀ (s : State) (i : Instr), s.loaded = true → s.run = .running → i.WellFormed →
    (s.readByte s.pc).toNat = (encode i).toNat / 256 → (s.readByte (s.pc + 1#12)).toNat = (encode i).toNat % 256 →
    step s = exec i s

/-- The fetched word is big-endian, and at 0xFFF its low byte is at 0x000 (20_memory.md R73, R74). -/
def Obligations.FetchIsBigEndianAndWraps : Prop :=
  ∀ s : State,
    s.fetchWord.toNat = 256 * (s.readByte s.pc).toNat + (s.readByte (s.pc + 1#12)).toNat ∧
    (s.pc = 0xFFF → s.fetchWord.toNat = 256 * (s.readByte 0xFFF).toNat + (s.readByte 0x000).toNat)

/-- A decode failure is not a fault: RUN and FAULT stay and the program goes on at PC + 2 (60_exceptions.md R246). That
nothing else changes and that the step returns DecodeFailure with the word are 30_encoding.md R103 and 10_state.md R59,
which the spec marks as its own choice (decision D22). -/
def Obligations.DecodeFailureIsSkipped : Prop :=
  ∀ (s : State) (e : DecodeReject), s.loaded = true → s.run = .running → decode s.fetchWord = .error e →
    ∃ t, step s = .next t ∧ Advanced s t ∧ SameButPc s t ∧ stepResult s t = .decodeFailure s.fetchWord

/-- A step while Halted does nothing and returns Halted(FAULT) (60_exceptions.md R244). -/
def Obligations.HaltedStepDoesNothing : Prop :=
  ∀ s : State, s.loaded = true → s.run = .halted → step s = .next s ∧ stepResult s s = .halted s.fault

/-- A loaded machine's step always answers a next state, whatever memory holds; only an unloaded one is refused
(10_state.md R46, 60_exceptions.md R259, decision D12). -/
def Obligations.LoadedStepAlwaysAnswers : Prop :=
  ∀ s : State, (s.loaded = true → ∃ t, step s = .next t) ∧ (s.loaded = false → step s = .refused .stepBeforeLoad)

/-- The poll of a waiting machine (44_timers_keys.md R225): it fetches nothing and makes no memory access; with no key
pressed nothing changes; with one, a pressed key goes to V[WAITREG], the machine is Running and PC goes past the Fx0A.
That WAITREG keeps its value when the wait ends is the model's (log 15; the spec leaves it open, U14); which pressed key
is taken is its free choice (log 3). -/
def Obligations.KeyWaitPoll : Prop :=
  ∀ s : State, s.loaded = true → s.run = .waitingForKey →
    s.stepAccesses = [] ∧
    ((∀ k, s.keyDown k = false) → step s = .next s ∧ stepResult s s = .waiting) ∧
    ((∃ k, s.keyDown k = true) →
      ∃ t k, step s = .next t ∧ s.keyDown k = true ∧ (t.getV s.waitreg).toNat = k.val ∧ t.run = .running ∧
        Advanced s t ∧ stepResult s t = .executed ∧
        SameRegsBut [s.waitreg] s t ∧ t.i = s.i ∧ SameMem s t ∧ SameStack s t ∧ SameTimers s t ∧ SameScreen s t ∧
        t.waitreg = s.waitreg ∧ t.fault = s.fault ∧ t.loaded = s.loaded ∧ SameInputs s t)

/-- A step at a parked machine changes nothing (70_reset_and_hazards.md R278, decision D27). -/
def Obligations.ParkedStepChangesNothing : Prop :=
  ∀ (s : State) (e : Addr), s.loaded = true → State.ParkedAt e s → step s = .next s ∧ stepResult s s = .executed

/-! ## Control flow -/

/-- RET (40_control_flow.md R130, 10_state.md R39). That the popped entry keeps its old value is the model's (log 14; the
spec leaves it open, U13, decision D16). -/
def Obligations.ReturnPopsTheStack : Prop :=
  decode 0x00EE = .ok .ret ∧
  ∀ s : State,
    (∀ h : 0 < s.sp.val,
      ∃ t, exec .ret s = .next t ∧ t.pc = s.stack[s.sp.val - 1]'(by omega) ∧ t.sp.val = s.sp.val - 1 ∧
        t.stack = s.stack ∧ SameButStack s t ∧ Returns .executed .ret s t) ∧
    (s.sp.val = 0 →
      ∃ t, exec .ret s = .next t ∧ TookFault .stackUnderflow s t ∧ Returns (.faulted .stackUnderflow) .ret s t)

/-- SYS, JP and JP V0 (40_control_flow.md R131, R132, R138): only PC changes. -/
def Obligations.JumpsSetOnlyPc : Prop :=
  ∀ (nnn : Addr) (s : State),
    (nnn ≠ 0x0E0#12 → nnn ≠ 0x0EE#12 → decode (wordA 0x0 nnn) = .ok (.sys nnn)) ∧
    (∃ t, exec (.sys nnn) s = .next t ∧ Advanced s t ∧ SameButPc s t ∧ Returns .executed (.sys nnn) s t) ∧
    decode (wordA 0x1 nnn) = .ok (.jp nnn) ∧
    (∃ t, exec (.jp nnn) s = .next t ∧ t.pc = nnn ∧ SameButPc s t ∧ Returns .executed (.jp nnn) s t) ∧
    decode (wordA 0xB nnn) = .ok (.jpV0 nnn) ∧
    (∃ t, exec (.jpV0 nnn) s = .next t ∧ t.pc.toNat = (nnn.toNat + (s.getV 0).toNat) % 4096 ∧ SameButPc s t ∧
      Returns .executed (.jpV0 nnn) s t)

/-- CALL (40_control_flow.md R133). -/
def Obligations.CallPushesTheReturnAddress : Prop :=
  ∀ (nnn : Addr) (s : State),
    decode (wordA 0x2 nnn) = .ok (.call nnn) ∧
    (∀ h : s.sp.val < 16,
      ∃ t, exec (.call nnn) s = .next t ∧ t.pc = nnn ∧ t.sp.val = s.sp.val + 1 ∧
        (t.stack[s.sp.val]).toNat = (s.pc.toNat + 2) % 4096 ∧
        (∀ j : Fin 16, j.val ≠ s.sp.val → t.stack[j] = s.stack[j]) ∧
        SameButStack s t ∧ Returns .executed (.call nnn) s t) ∧
    (s.sp.val = 16 →
      ∃ t, exec (.call nnn) s = .next t ∧ TookFault .stackOverflow s t ∧
        Returns (.faulted .stackOverflow) (.call nnn) s t)

/-- After a CALL, a RET from any later state that has the same call stack goes to the address after the CALL and the
stack depth is as before the CALL (95_test_vectors.md W3). -/
def Obligations.ReturnComesBackAfterTheCall : Prop :=
  ∀ (nnn : Addr) (s : State), s.sp.val < 16 →
    ∃ t, exec (.call nnn) s = .next t ∧
      ∀ u : State, SameStack t u → ∃ w, exec .ret u = .next w ∧ Advanced s w ∧ w.sp = s.sp

/-- The four skips (40_control_flow.md R134 to R137): PC + 4 when the condition holds, else PC + 2, mod 4096 (R140), and
nothing else. The words 5xyN and 9xyN with N ≠ 0 are no skips (R97). -/
def Obligations.SkipsFollowTheirCondition : Prop :=
  ∀ (x y : Reg) (kk : Byte) (s : State),
    decode (wordXK 0x3 x kk.toNat) = .ok (.se x kk) ∧
    (∃ t, exec (.se x kk) s = .next t ∧ (s.getV x = kk → Skipped s t) ∧ (s.getV x ≠ kk → Advanced s t) ∧
      SameButPc s t ∧ Returns .executed (.se x kk) s t) ∧
    decode (wordXK 0x4 x kk.toNat) = .ok (.sne x kk) ∧
    (∃ t, exec (.sne x kk) s = .next t ∧ (s.getV x ≠ kk → Skipped s t) ∧ (s.getV x = kk → Advanced s t) ∧
      SameButPc s t ∧ Returns .executed (.sne x kk) s t) ∧
    decode (wordXYN 0x5 x y 0) = .ok (.seReg x y) ∧
    (∃ t, exec (.seReg x y) s = .next t ∧ (s.getV x = s.getV y → Skipped s t) ∧
      (s.getV x ≠ s.getV y → Advanced s t) ∧ SameButPc s t ∧ Returns .executed (.seReg x y) s t) ∧
    (∀ n, 0 < n → n < 16 → decode (wordXYN 0x5 x y n) = .error .family5) ∧
    decode (wordXYN 0x9 x y 0) = .ok (.sneReg x y) ∧
    (∃ t, exec (.sneReg x y) s = .next t ∧ (s.getV x ≠ s.getV y → Skipped s t) ∧
      (s.getV x = s.getV y → Advanced s t) ∧ SameButPc s t ∧ Returns .executed (.sneReg x y) s t) ∧
    (∀ n, 0 < n → n < 16 → decode (wordXYN 0x9 x y n) = .error .family9)

/-! ## Loads and arithmetic -/

/-- LD Vx, kk, ADD Vx, kk and LD Vx, Vy (41_alu.md R151 to R153): no flag. -/
def Obligations.LoadsAndImmediateAdd : Prop :=
  ∀ (x y : Reg) (kk : Byte) (s : State),
    decode (wordXK 0x6 x kk.toNat) = .ok (.ld x kk) ∧
    (∃ t, exec (.ld x kk) s = .next t ∧ t.getV x = kk ∧ SameRegsBut [x] s t ∧ t.i = s.i ∧ Advanced s t ∧
      SameButRegs s t ∧ Returns .executed (.ld x kk) s t) ∧
    decode (wordXK 0x7 x kk.toNat) = .ok (.add x kk) ∧
    (∃ t, exec (.add x kk) s = .next t ∧ (t.getV x).toNat = ((s.getV x).toNat + kk.toNat) % 256 ∧
      SameRegsBut [x] s t ∧ t.i = s.i ∧ Advanced s t ∧ SameButRegs s t ∧ Returns .executed (.add x kk) s t) ∧
    decode (wordXYN 0x8 x y 0) = .ok (.ldReg x y) ∧
    (∃ t, exec (.ldReg x y) s = .next t ∧ t.getV x = s.getV y ∧ SameRegsBut [x] s t ∧ t.i = s.i ∧ Advanced s t ∧
      SameButRegs s t ∧ Returns .executed (.ldReg x y) s t)

/-- OR, AND and XOR (41_alu.md R154 to R156), bit by bit: no flag. -/
def Obligations.BitwiseLogic : Prop :=
  ∀ (x y : Reg) (s : State),
    decode (wordXYN 0x8 x y 1) = .ok (.orReg x y) ∧
    (∃ t, exec (.orReg x y) s = .next t ∧
      (∀ b < 8, (t.getV x).getLsbD b = ((s.getV x).getLsbD b || (s.getV y).getLsbD b)) ∧
      SameRegsBut [x] s t ∧ t.i = s.i ∧ Advanced s t ∧ SameButRegs s t ∧ Returns .executed (.orReg x y) s t) ∧
    decode (wordXYN 0x8 x y 2) = .ok (.andReg x y) ∧
    (∃ t, exec (.andReg x y) s = .next t ∧
      (∀ b < 8, (t.getV x).getLsbD b = ((s.getV x).getLsbD b && (s.getV y).getLsbD b)) ∧
      SameRegsBut [x] s t ∧ t.i = s.i ∧ Advanced s t ∧ SameButRegs s t ∧ Returns .executed (.andReg x y) s t) ∧
    decode (wordXYN 0x8 x y 3) = .ok (.xorReg x y) ∧
    (∃ t, exec (.xorReg x y) s = .next t ∧
      (∀ b < 8, (t.getV x).getLsbD b = ((s.getV x).getLsbD b != (s.getV y).getLsbD b)) ∧
      SameRegsBut [x] s t ∧ t.i = s.i ∧ Advanced s t ∧ SameButRegs s t ∧ Returns .executed (.xorReg x y) s t)

/-- ADD Vx, Vy under both write orders (41_alu.md R158). -/
def Obligations.AddSetsTheCarry : Prop :=
  ∀ (x y : Reg) (s : State),
    let sum := (s.getV x).toNat + (s.getV y).toNat
    let f := if 255 < sum then 1 else 0
    decode (wordXYN 0x8 x y 4) = .ok (.addReg x y) ∧
    ∃ t, exec (.addReg x y) s = .next t ∧
      (s.cfg.vfAliasMode = .sequential →
        (t.getV x).toNat = sum % 256 ∧ (x ≠ VF → (t.getV VF).toNat = f)) ∧
      (s.cfg.vfAliasMode = .flagLast →
        (t.getV VF).toNat = f ∧ (x ≠ VF → (t.getV x).toNat = sum % 256)) ∧
      SameRegsBut [x, VF] s t ∧ t.i = s.i ∧ Advanced s t ∧ SameButRegs s t ∧ Returns .executed (.addReg x y) s t

/-- SUB Vx, Vy under both write orders (41_alu.md R159). Under `sequential` an operand that is VF is read after the
flag's write. -/
def Obligations.SubSetsNotBorrow : Prop :=
  ∀ (x y : Reg) (s : State),
    let a := (s.getV x).toNat
    let b := (s.getV y).toNat
    let f := if b < a then 1 else 0
    let a' := if x = VF then f else a
    let b' := if y = VF then f else b
    decode (wordXYN 0x8 x y 5) = .ok (.sub x y) ∧
    ∃ t, exec (.sub x y) s = .next t ∧
      (s.cfg.vfAliasMode = .sequential →
        (t.getV x).toNat = (256 + a' - b') % 256 ∧ (x ≠ VF → (t.getV VF).toNat = f)) ∧
      (s.cfg.vfAliasMode = .flagLast →
        (t.getV VF).toNat = f ∧ (x ≠ VF → (t.getV x).toNat = (256 + a - b) % 256)) ∧
      SameRegsBut [x, VF] s t ∧ t.i = s.i ∧ Advanced s t ∧ SameButRegs s t ∧ Returns .executed (.sub x y) s t

/-- SUBN Vx, Vy under both write orders (41_alu.md R161). -/
def Obligations.SubnSetsNotBorrow : Prop :=
  ∀ (x y : Reg) (s : State),
    let a := (s.getV x).toNat
    let b := (s.getV y).toNat
    let f := if a < b then 1 else 0
    let a' := if x = VF then f else a
    let b' := if y = VF then f else b
    decode (wordXYN 0x8 x y 7) = .ok (.subn x y) ∧
    ∃ t, exec (.subn x y) s = .next t ∧
      (s.cfg.vfAliasMode = .sequential →
        (t.getV x).toNat = (256 + b' - a') % 256 ∧ (x ≠ VF → (t.getV VF).toNat = f)) ∧
      (s.cfg.vfAliasMode = .flagLast →
        (t.getV VF).toNat = f ∧ (x ≠ VF → (t.getV x).toNat = (256 + b - a) % 256)) ∧
      SameRegsBut [x, VF] s t ∧ t.i = s.i ∧ Advanced s t ∧ SameButRegs s t ∧ Returns .executed (.subn x y) s t

/-- SHR Vx under both write orders; Vy is not read (41_alu.md R160). -/
def Obligations.ShrSetsTheBitShiftedOut : Prop :=
  ∀ (x y : Reg) (s : State),
    let a := (s.getV x).toNat
    let f := a % 2
    let a' := if x = VF then f else a
    decode (wordXYN 0x8 x y 6) = .ok (.shr x y) ∧
    ∃ t, exec (.shr x y) s = .next t ∧
      (s.cfg.vfAliasMode = .sequential → (t.getV x).toNat = a' / 2 ∧ (x ≠ VF → (t.getV VF).toNat = f)) ∧
      (s.cfg.vfAliasMode = .flagLast → (t.getV VF).toNat = f ∧ (x ≠ VF → (t.getV x).toNat = a / 2)) ∧
      SameRegsBut [x, VF] s t ∧ t.i = s.i ∧ Advanced s t ∧ SameButRegs s t ∧ Returns .executed (.shr x y) s t

/-- SHL Vx under both write orders; Vy is not read (41_alu.md R162). -/
def Obligations.ShlSetsTheBitShiftedOut : Prop :=
  ∀ (x y : Reg) (s : State),
    let a := (s.getV x).toNat
    let f := a / 128
    let a' := if x = VF then f else a
    decode (wordXYN 0x8 x y 0xE) = .ok (.shl x y) ∧
    ∃ t, exec (.shl x y) s = .next t ∧
      (s.cfg.vfAliasMode = .sequential → (t.getV x).toNat = a' * 2 % 256 ∧ (x ≠ VF → (t.getV VF).toNat = f)) ∧
      (s.cfg.vfAliasMode = .flagLast → (t.getV VF).toNat = f ∧ (x ≠ VF → (t.getV x).toNat = a * 2 % 256)) ∧
      SameRegsBut [x, VF] s t ∧ t.i = s.i ∧ Advanced s t ∧ SameButRegs s t ∧ Returns .executed (.shl x y) s t

/-- `VF_ALIAS_MODE` has no effect when neither x nor y is F (41_alu.md R157, decision D3): the five flag-writing
instructions give the same state under both settings, but for the setting itself. -/
def Obligations.AliasModeMattersOnlyForVF : Prop :=
  ∀ (x y : Reg) (s : State) (i : Instr), x ≠ VF → y ≠ VF →
    i ∈ [Instr.addReg x y, .sub x y, .shr x y, .subn x y, .shl x y] →
    ∃ t u, exec i { s with cfg := { s.cfg with vfAliasMode := .sequential } } = .next t ∧
      exec i { s with cfg := { s.cfg with vfAliasMode := .flagLast } } = .next u ∧
      u = { t with cfg := { s.cfg with vfAliasMode := .flagLast } }

/-- RND Vx, kk (41_alu.md R163): Vx is the drawn byte masked by kk, so no bit outside kk is set, and the draw is used
up. The drawn byte is the model's free value, log 2 (decision D15); the statement holds whatever it is. -/
def Obligations.RandomIsMasked : Prop :=
  ∀ (x : Reg) (kk : Byte) (s : State),
    decode (wordXK 0xC x kk.toNat) = .ok (.rnd x kk) ∧
    ∃ t, exec (.rnd x kk) s = .next t ∧
      (∀ b < 8, (t.getV x).getLsbD b = ((Config.randomByte s.draws).getLsbD b && kk.getLsbD b)) ∧
      t.draws = s.draws + 1 ∧ SameRegsBut [x] s t ∧ t.i = s.i ∧ Advanced s t ∧
      SameMem s t ∧ SameStack s t ∧ SameTimers s t ∧ SameScreen s t ∧ SameMachine s t ∧ SameInputs s t ∧
      Returns .executed (.rnd x kk) s t

/-! ## Index register and memory -/

/-- LD I, nnn and LD F, Vx (42_index_memory.md R180, R182): the whole of Vx times 5. -/
def Obligations.IndexLoads : Prop :=
  ∀ (nnn : Addr) (x : Reg) (s : State),
    decode (wordA 0xA nnn) = .ok (.ldI nnn) ∧
    (∃ t, exec (.ldI nnn) s = .next t ∧ t.i = nnn ∧ Advanced s t ∧ SameButIndex s t ∧
      Returns .executed (.ldI nnn) s t) ∧
    decode (wordXK 0xF x 0x29) = .ok (.ldFVx x) ∧
    (∃ t, exec (.ldFVx x) s = .next t ∧ t.i.toNat = (s.getV x).toNat * 5 ∧ Advanced s t ∧ SameButIndex s t ∧
      Returns .executed (.ldFVx x) s t)

/-- ADD I, Vx under both settings of `FX1E_VF` (42_index_memory.md R181, decision D4). -/
def Obligations.IndexAdd : Prop :=
  ∀ (x : Reg) (s : State),
    let sum := s.i.toNat + (s.getV x).toNat
    decode (wordXK 0xF x 0x1E) = .ok (.addIVx x) ∧
    ∃ t, exec (.addIVx x) s = .next t ∧ t.i.toNat = sum % 4096 ∧
      (s.cfg.fx1eVf = .unchanged → SameRegsBut [] s t) ∧
      (s.cfg.fx1eVf = .overflowFlag →
        (t.getV VF).toNat = (if 0xFFF < sum then 1 else 0) ∧ SameRegsBut [VF] s t) ∧
      Advanced s t ∧ SameButRegs s t ∧ Returns .executed (.addIVx x) s t

/-- LD B, Vx (42_index_memory.md R183): hundreds, tens and units at I, I + 1, I + 2 (mod 4096); no other byte changes,
and I does not. -/
def Obligations.DecimalDigitsAreStored : Prop :=
  ∀ (x : Reg) (s : State), Memory.wf s.cfg.font s.mem →
    let v := (s.getV x).toNat
    decode (wordXK 0xF x 0x33) = .ok (.ldBVx x) ∧
    ∃ t, exec (.ldBVx x) s = .next t ∧
      (t.readByte s.i).toNat = v / 100 ∧ (t.readByte (s.i + 1#12)).toNat = v / 10 % 10 ∧
      (t.readByte (s.i + 2#12)).toNat = v % 10 ∧ SameMemOutside s.i 3 s t ∧
      t.i = s.i ∧ Advanced s t ∧ SameButMem s t ∧ Returns .executed (.ldBVx x) s t

/-- LD [I], Vx (42_index_memory.md R184): registers V0 to Vx at I to I + x (mod 4096); no other byte changes; I by
`LOADSTORE_I` (decision D5). -/
def Obligations.RegistersAreStored : Prop :=
  ∀ (x : Reg) (s : State), Memory.wf s.cfg.font s.mem →
    decode (wordXK 0xF x 0x55) = .ok (.ldMemVx x) ∧
    ∃ t, exec (.ldMemVx x) s = .next t ∧
      (∀ j : Reg, j ≤ x → t.readByte (s.indirect j.val) = s.getV j) ∧
      SameMemOutside (s.indirect 0) (x.val + 1) s t ∧
      (s.cfg.loadStoreI = .unchanged → t.i = s.i) ∧
      (s.cfg.loadStoreI = .increment → t.i.toNat = (s.i.toNat + x.val + 1) % 4096) ∧
      Advanced s t ∧ SameButMem s t ∧ Returns .executed (.ldMemVx x) s t

/-- LD Vx, [I] (42_index_memory.md R185): the bytes at I to I + x (mod 4096) into V0 to Vx; the other registers and
memory stay; I by `LOADSTORE_I` (decision D5). -/
def Obligations.RegistersAreLoaded : Prop :=
  ∀ (x : Reg) (s : State),
    decode (wordXK 0xF x 0x65) = .ok (.ldVxMem x) ∧
    ∃ t, exec (.ldVxMem x) s = .next t ∧
      (∀ j : Reg, j ≤ x → t.getV j = s.readByte (s.indirect j.val)) ∧
      (∀ j : Reg, x < j → t.getV j = s.getV j) ∧
      (s.cfg.loadStoreI = .unchanged → t.i = s.i) ∧
      (s.cfg.loadStoreI = .increment → t.i.toNat = (s.i.toNat + x.val + 1) % 4096) ∧
      Advanced s t ∧ SameButRegs s t ∧ Returns .executed (.ldVxMem x) s t

/-- What LD [I], Vx stored, LD Vx, [I] brings back, whatever the registers hold in between, while `LOADSTORE_I` leaves I
alone (42_index_memory.md R184, R185; decision D5). -/
def Obligations.StoreThenLoadRestoresRegisters : Prop :=
  ∀ (x : Reg) (s : State), Memory.wf s.cfg.font s.mem → s.cfg.loadStoreI = .unchanged →
    ∃ t, exec (.ldMemVx x) s = .next t ∧
      ∀ between : Vector Byte 16, ∃ u, exec (.ldVxMem x) { t with v := between } = .next u ∧
        ∀ j : Reg, j ≤ x → u.getV j = s.getV j

/-- A store to the next instruction's two bytes is what the next step fetches (20_memory.md R83, decision D17): V0 and
V1 stored at PC + 2 are the word at the new PC, V0 first. -/
def Obligations.StoredCodeIsFetched : Prop :=
  ∀ (x : Reg) (s : State), Memory.wf s.cfg.font s.mem → 1 ≤ x.val → s.i = s.pc + 2#12 →
    ∃ t, exec (.ldMemVx x) s = .next t ∧ t.fetchWord.toNat = 256 * (s.getV 0).toNat + (s.getV 1).toNat

/-- The memory after a step is what the port leaves after serving the step's accesses in order (20_memory.md R75, R80,
R81; decision D18); a load likewise. -/
def Obligations.MemoryFollowsThePort : Prop :=
  ∀ (s t : State) (x : Transaction) (r : Response), x ≠ .reset → transact x s = .next (t, r) →
    t.mem = (s.serveAll (s.accesses x)).1.mem

/-! ## Display -/

/-- CLS (43_display.md R203): every cell 0, VF and everything else unchanged. -/
def Obligations.ClearScreen : Prop :=
  decode 0x00E0 = .ok .cls ∧
  ∀ s : State, ∃ t, exec .cls s = .next t ∧ (∀ c r, Framebuffer.get t.fb c r = false) ∧ Advanced s t ∧
    SameRegsBut [] s t ∧ t.i = s.i ∧ SameMem s t ∧ SameStack s t ∧ SameTimers s t ∧ SameMachine s t ∧
    SameInputs s t ∧ NoDraw s t ∧ Returns .executed .cls s t

/-- DRW Vx, Vy, n (43_display.md R201, R202, R204, R205; n rows by C1, n = 0 by decision D14): a cell is turned over
exactly where a 1 bit of the n bytes from I falls on it, wrapping at the edges; VF is 1 exactly where such a cell held
1, else 0. -/
def Obligations.DrawXorsTheSprite : Prop :=
  ∀ (x y : Reg) (n : BitVec 4) (s : State),
    let covers := SpriteCovers (s.getV x) (s.getV y) ((List.range n.toNat).map fun j => s.readByte (s.indirect j))
    decode (wordXYN 0xD x y n.toNat) = .ok (.drw x y n) ∧
    ∃ t, exec (.drw x y n) s = .next t ∧
      (∀ c r, Framebuffer.get t.fb c r = true ↔ ¬ (Framebuffer.get s.fb c r = true ↔ covers c r)) ∧
      ((∃ c r, covers c r ∧ Framebuffer.get s.fb c r = true) → t.getV VF = 1) ∧
      ((¬ ∃ c r, covers c r ∧ Framebuffer.get s.fb c r = true) → t.getV VF = 0) ∧
      SameRegsBut [VF] s t ∧ t.i = s.i ∧ Advanced s t ∧ SameMem s t ∧ SameStack s t ∧ SameTimers s t ∧
      SameMachine s t ∧ SameInputs s t ∧ NoDraw s t ∧ Returns .executed (.drw x y n) s t

/-- The same sprite drawn twice at the same place gives the screen back, and the second draw collides exactly where the
first turned a cell on (43_display.md R206). Between the draws anything may happen that leaves the coordinates, I, the
bytes of memory and the screen as they were. -/
def Obligations.DrawingTwiceRestoresTheScreen : Prop :=
  ∀ (x y : Reg) (n : BitVec 4) (s : State),
    ∃ t, exec (.drw x y n) s = .next t ∧
      ∀ u : State, SameScreen t u → u.getV x = s.getV x → u.getV y = s.getV y → u.i = s.i → SameMem s u →
        ∃ w, exec (.drw x y n) u = .next w ∧ SameScreen s w ∧
          ((∃ c r, Framebuffer.get s.fb c r = false ∧ Framebuffer.get t.fb c r = true) → w.getV VF = 1) ∧
          ((¬ ∃ c r, Framebuffer.get s.fb c r = false ∧ Framebuffer.get t.fb c r = true) → w.getV VF = 0)

/-! ## Keys and timers -/

/-- SKP and SKNP (44_timers_keys.md R220 to R222, decision D6): a value below 16 names its key; a larger one faults,
names the key of its low nibble, or no key, by `KEY_INDEX_POLICY`. -/
def Obligations.KeySkips : Prop :=
  ∀ (x : Reg) (s : State),
    let v := (s.getV x).toNat
    decode (wordXK 0xE x 0x9E) = .ok (.skp x) ∧ decode (wordXK 0xE x 0xA1) = .ok (.sknp x) ∧
    (v < 16 ∨ s.cfg.keyIndexPolicy ≠ .fault →
      ∃ t u, exec (.skp x) s = .next t ∧ exec (.sknp x) s = .next u ∧ SameButPc s t ∧ SameButPc s u ∧
        Returns .executed (.skp x) s t ∧ Returns .executed (.sknp x) s u ∧
        (∀ k : Reg, (k.val = v ∨ (16 ≤ v ∧ s.cfg.keyIndexPolicy = .lowNibble ∧ k.val = v % 16)) →
          (s.keyDown k = true → Skipped s t ∧ Advanced s u) ∧ (s.keyDown k = false → Advanced s t ∧ Skipped s u)) ∧
        (16 ≤ v → s.cfg.keyIndexPolicy = .notPressed → Advanced s t ∧ Skipped s u)) ∧
    (16 ≤ v → s.cfg.keyIndexPolicy = .fault →
      ∃ t u, exec (.skp x) s = .next t ∧ exec (.sknp x) s = .next u ∧
        TookFault .keyIndexRange s t ∧ TookFault .keyIndexRange s u ∧
        Returns (.faulted .keyIndexRange) (.skp x) s t ∧ Returns (.faulted .keyIndexRange) (.sknp x) s u)

/-- LD Vx, DT, LD DT, Vx and LD ST, Vx (44_timers_keys.md R223, R227, R228). -/
def Obligations.TimerTransfers : Prop :=
  ∀ (x : Reg) (s : State),
    decode (wordXK 0xF x 0x07) = .ok (.ldVxDt x) ∧
    (∃ t, exec (.ldVxDt x) s = .next t ∧ t.getV x = s.dt ∧ SameRegsBut [x] s t ∧ t.i = s.i ∧ Advanced s t ∧
      SameButRegs s t ∧ Returns .executed (.ldVxDt x) s t) ∧
    decode (wordXK 0xF x 0x15) = .ok (.ldDtVx x) ∧
    (∃ t, exec (.ldDtVx x) s = .next t ∧ t.dt = s.getV x ∧ t.st = s.st ∧ SameRegsBut [] s t ∧ t.i = s.i ∧
      Advanced s t ∧ SameMem s t ∧ SameStack s t ∧ SameScreen s t ∧ SameMachine s t ∧ SameInputs s t ∧ NoDraw s t ∧
      Returns .executed (.ldDtVx x) s t) ∧
    decode (wordXK 0xF x 0x18) = .ok (.ldStVx x) ∧
    (∃ t, exec (.ldStVx x) s = .next t ∧ t.st = s.getV x ∧ t.dt = s.dt ∧ SameRegsBut [] s t ∧ t.i = s.i ∧
      Advanced s t ∧ SameMem s t ∧ SameStack s t ∧ SameScreen s t ∧ SameMachine s t ∧ SameInputs s t ∧ NoDraw s t ∧
      Returns .executed (.ldStVx x) s t)

/-- LD Vx, K (44_timers_keys.md R224, R226; decision D7): with a key pressed one of the pressed keys goes to Vx and PC
advances (which one is the model's free choice, log 3); with none the machine waits, PC stays and WAITREG is x. -/
def Obligations.WaitForKey : Prop :=
  ∀ (x : Reg) (s : State),
    decode (wordXK 0xF x 0x0A) = .ok (.ldVxK x) ∧
    ((∃ k, s.keyDown k = true) →
      ∃ t k, exec (.ldVxK x) s = .next t ∧ s.keyDown k = true ∧ (t.getV x).toNat = k.val ∧ SameRegsBut [x] s t ∧
        t.i = s.i ∧ Advanced s t ∧ SameMem s t ∧ SameStack s t ∧ SameTimers s t ∧ SameScreen s t ∧ SameMachine s t ∧
        SameInputs s t ∧ Returns .executed (.ldVxK x) s t) ∧
    ((∀ k, s.keyDown k = false) →
      ∃ t, exec (.ldVxK x) s = .next t ∧ t.run = .waitingForKey ∧ t.waitreg = x ∧ t.fault = s.fault ∧
        t.loaded = s.loaded ∧ SameButMachine s t ∧ Returns .waiting (.ldVxK x) s t)

/-! ## Faults -/

/-- The only ways an instruction halts the machine, each precise: nothing but FAULT and RUN is written
(60_exceptions.md R240, R242, R243; decisions D6, D9, D10). -/
def Obligations.FaultsArePreciseAndComplete : Prop :=
  ∀ (i : Instr) (s t : State), s.run ≠ .halted → exec i s = .next t → t.run = .halted →
    ∃ c, t = { s with fault := some c, run := .halted } ∧
      ((i = .ret ∧ s.sp.val = 0 ∧ c = .stackUnderflow) ∨
       (∃ nnn, i = .call nnn ∧ s.sp.val = 16 ∧ c = .stackOverflow) ∨
       (∃ x, (i = .skp x ∨ i = .sknp x) ∧ 16 ≤ (s.getV x).toNat ∧ s.cfg.keyIndexPolicy = .fault ∧
         c = .keyIndexRange))

/-- Halted is left only by reset: over any transactions but reset, the machine stays Halted with its cause, and PC, I,
registers, memory, stack and screen stay (60_exceptions.md R244, R245; decision D11). -/
def Obligations.HaltedUntilReset : Prop :=
  ∀ (xs : List Transaction) (s t : State) (rs : List Response), Transaction.reset ∉ xs → s.run = .halted →
    s.loaded = true → runTransactions xs s = .next (t, rs) →
    t.run = .halted ∧ t.fault = s.fault ∧ t.pc = s.pc ∧ t.i = s.i ∧ SameRegsBut [] s t ∧ SameMem s t ∧
      SameStack s t ∧ SameScreen s t

/-! ## Reset, load and the other transactions -/

/-- `reset` in any state, Halted included, leaves every piece of state at its reset value, and the model's
`State.reset` is such a state with the default settings (10_state.md R51, 70_reset_and_hazards.md R270; decision D11).
The draws taken stay taken (the model's choice, log 4). -/
def Obligations.ResetLeavesTheResetValues : Prop :=
  State.reset.AtReset defaultConfig ∧
  ∀ s : State, ∃ t, transact .reset s = .next (t, .nothing) ∧ t.AtReset s.cfg ∧ t.draws = s.draws

/-- `load`: a program of at most 3584 bytes goes to 0x200 on and LOADED is set (70_reset_and_hazards.md R272); a longer
one changes nothing (R273, decision D12); a loaded machine refuses (60_exceptions.md R259, decision D12; that a refusal
leaves no state is log 12). -/
def Obligations.LoadCopiesTheProgram : Prop :=
  ∀ (rom : List Byte) (s : State), Memory.wf s.cfg.font s.mem →
    (s.loaded = false → rom.length ≤ 3584 →
      ∃ t, transact (.load rom) s = .next (t, .load .ok) ∧ t.loaded = true ∧
        (∀ (j : Nat) (h : j < rom.length), t.readByte (BitVec.ofNat 12 (0x200 + j)) = rom[j]) ∧
        (∀ a : Addr, a.toNat < 0x200 ∨ 0x200 + rom.length ≤ a.toNat → t.readByte a = s.readByte a) ∧
        SameRegsBut [] s t ∧ t.i = s.i ∧ t.pc = s.pc ∧ SameStack s t ∧ SameTimers s t ∧ SameScreen s t ∧
        t.run = s.run ∧ t.waitreg = s.waitreg ∧ t.fault = s.fault ∧ SameInputs s t ∧ NoDraw s t) ∧
    (s.loaded = false → 3584 < rom.length → transact (.load rom) s = .next (s, .load .romTooLarge)) ∧
    (s.loaded = true → transact (.load rom) s = .refused .loadAfterLoad)

/-- `tick_timers` (60_exceptions.md R251), whatever the machine state: each nonzero counter goes down by one, and
nothing else changes. -/
def Obligations.TickDecrementsBothTimers : Prop :=
  ∀ s : State, ∃ t, transact .tickTimers s = .next (t, .nothing) ∧
    (s.dt ≠ 0 → t.dt.toNat + 1 = s.dt.toNat) ∧ (s.dt = 0 → t.dt = 0) ∧
    (s.st ≠ 0 → t.st.toNat + 1 = s.st.toNat) ∧ (s.st = 0 → t.st = 0) ∧
    SameRegsBut [] s t ∧ t.i = s.i ∧ t.pc = s.pc ∧ SameMem s t ∧ SameStack s t ∧ SameScreen s t ∧ SameMachine s t ∧
    SameInputs s t ∧ NoDraw s t

/-- `framebuffer_snapshot` returns FB and `is_tone_active` returns ST ≠ 0; neither changes anything (10_state.md R62,
R63). -/
def Obligations.OutputsChangeNothing : Prop :=
  ∀ s : State, transact .framebufferSnapshot s = .next (s, .snapshot s.fb) ∧
    (s.st ≠ 0 → transact .isToneActive s = .next (s, .tone true)) ∧
    (s.st = 0 → transact .isToneActive s = .next (s, .tone false))

/-- The debug port returns every piece of state and changes nothing (10_state.md R64, decision D26; the codes of RUN and
FAULT are decision D10). -/
def Obligations.DebugPortReadsEveryState : Prop :=
  ∀ s : State,
    let read := fun name n => transact (.debugRead name) s = .next (s, .value n)
    (∀ a, read (.mem a) (s.readByte a).toNat) ∧ (∀ x, read (.v x) (s.getV x).toNat) ∧
    read .i s.i.toNat ∧ read .pc s.pc.toNat ∧ (∀ j : Fin 16, read (.stack j) (s.stack[j]).toNat) ∧
    read .sp s.sp.val ∧ read .dt s.dt.toNat ∧ read .st s.st.toNat ∧
    (∀ c r, read (.fb c r) (if Framebuffer.get s.fb c r then 1 else 0)) ∧
    (∀ k, read (.key k) (if s.keyDown k then 1 else 0)) ∧
    (s.run = .running → read .run 0) ∧ (s.run = .waitingForKey → read .run 1) ∧ (s.run = .halted → read .run 2) ∧
    read .waitreg s.waitreg.val ∧
    (s.fault = none → read .fault 0) ∧ (s.fault = some .stackOverflow → read .fault 1) ∧
    (s.fault = some .stackUnderflow → read .fault 2) ∧ (s.fault = some .keyIndexRange → read .fault 3) ∧
    read .loaded (if s.loaded then 1 else 0)

/-- `set_key` writes one key and nothing else; an index outside 0 to 15 is refused (10_state.md R61, decisions D23,
D24). -/
def Obligations.SetKeyWritesOneKey : Prop :=
  ∀ (k : Nat) (p : Bool) (s : State),
    (k < 16 → ∃ t, transact (.setKey k p) s = .next (t, .nothing) ∧
      (∀ j : Reg, t.keyDown j = if j.val = k then p else s.keyDown j) ∧ t.cfg = s.cfg ∧
      SameRegsBut [] s t ∧ t.i = s.i ∧ t.pc = s.pc ∧ SameMem s t ∧ SameStack s t ∧ SameTimers s t ∧ SameScreen s t ∧
      SameMachine s t ∧ NoDraw s t) ∧
    (16 ≤ k → transact (.setKey k p) s = .refused .keyOutsideRange)

/-! ## The whole machine -/

/-- The invariant holds after reset. -/
def Obligations.ResetHasTheInvariant : Prop := State.reset.Inv

/-- Every step keeps the invariant: canonical memory, a cause exactly while Halted, a loaded machine while it waits or
is Halted. -/
def Obligations.StepKeepsTheInvariant : Prop := ∀ s t : State, s.Inv → step s = .next t → t.Inv

/-- Every run of transactions, in any order the driver can issue, keeps the invariant (10_state.md R67). -/
def Obligations.RunsKeepTheInvariant : Prop :=
  ∀ (xs : List Transaction) (s t : State) (rs : List Response), s.Inv → runTransactions xs s = .next (t, rs) → t.Inv

/-- Who writes what (10_state.md R32 to R35, R37 to R47; 20_memory.md R75), over every transaction but reset: `V[r]` changes only by
one of its writers or, for r = WAITREG, by a poll; I only by one of its writers; PC only by a step; a stack entry only by
CALL, and only the one at SP; SP only by CALL or RET; DT only by a tick or Fx15; ST only by a tick or Fx18; FB only by
CLS or DRW; memory only by `load`, Fx33 or Fx55; KEY only by `set_key`; LOADED only by `load`; RUN only by an
instruction that can fault, Fx0A or a poll; WAITREG only by Fx0A; FAULT only by an instruction that can fault. That only
CALL changes a stack entry, so that RET leaves the popped one, is the model's (R38, R39; log 14; the spec leaves entries
at SP and above open, U13), and so is that a poll leaves WAITREG (R44; log 15; open by U14). That the settings never
change is the model's choice (log 1), and so is that the draws move only by RND, Fx0A or a poll (log 2 to log 4). -/
def Obligations.EachStateHasItsOwnWriters : Prop :=
  ∀ (x : Transaction) (s t : State) (r : Response), x ≠ .reset → transact x s = .next (t, r) →
    let runs := fun P : Instr → Prop => x = .step ∧ s.run = .running ∧ ∃ i, decode s.fetchWord = .ok i ∧ P i
    let polls := x = .step ∧ s.run = .waitingForKey
    (∀ q : Reg, t.getV q ≠ s.getV q → (polls ∧ q = s.waitreg) ∨ runs fun i => writesV s.cfg q i = true) ∧
    (t.i ≠ s.i → runs fun i => writesI s.cfg i = true) ∧
    (t.pc ≠ s.pc → x = .step) ∧
    (∀ j : Fin 16, t.stack[j] ≠ s.stack[j] → j.val = s.sp.val ∧ runs fun i => ∃ nnn, i = .call nnn) ∧
    (t.sp ≠ s.sp → runs fun i => i = .ret ∨ ∃ nnn, i = .call nnn) ∧
    (t.dt ≠ s.dt → x = .tickTimers ∨ runs fun i => ∃ y, i = .ldDtVx y) ∧
    (t.st ≠ s.st → x = .tickTimers ∨ runs fun i => ∃ y, i = .ldStVx y) ∧
    (t.fb ≠ s.fb → runs fun i => i = .cls ∨ ∃ y z n, i = .drw y z n) ∧
    (t.mem ≠ s.mem → (∃ rom, x = .load rom) ∨ runs fun i => (∃ y, i = .ldBVx y) ∨ ∃ y, i = .ldMemVx y) ∧
    (t.key ≠ s.key → ∃ k p, x = .setKey k p) ∧
    (t.loaded ≠ s.loaded → ∃ rom, x = .load rom) ∧
    (t.run ≠ s.run → polls ∨ runs fun i => canFault i = true ∨ ∃ y, i = .ldVxK y) ∧
    (t.waitreg ≠ s.waitreg → runs fun i => ∃ y, i = .ldVxK y) ∧
    (t.fault ≠ s.fault → runs fun i => canFault i = true) ∧
    (t.draws ≠ s.draws → polls ∨ runs fun i => (∃ y kk, i = .rnd y kk) ∨ ∃ y, i = .ldVxK y) ∧
    t.cfg = s.cfg

/-- The machine states change only as 10_state.md R43 says (decision D10): a step leads from Running to WaitingForKey
only by Fx0A with no key pressed, from WaitingForKey only to Running and only with a key pressed, and from Halted
nowhere. -/
def Obligations.MachineStatesChangeAsStated : Prop :=
  ∀ s t : State, step s = .next t →
    (s.run = .running → t.run = .waitingForKey →
      ∃ x, decode s.fetchWord = .ok (.ldVxK x) ∧ t.waitreg = x ∧ t.pc = s.pc ∧ ∀ k, s.keyDown k = false) ∧
    (s.run = .waitingForKey → t.run ≠ .waitingForKey → t.run = .running ∧ ∃ k, s.keyDown k = true) ∧
    (s.run = .halted → t.run = .halted)

/-- The values an instruction gives PC (30_encoding.md R102, 10_state.md R35; decision D9): PC + 2, PC + 4 for a skip, a
jump or call target, a popped address, or its own address while it waits or faults. -/
def Obligations.PcAfterAnInstruction : Prop :=
  ∀ (i : Instr) (s t : State), s.run = .running → exec i s = .next t →
    t.pc = s.pc + 2#12 ∨
    (t.pc = s.pc + 4#12 ∧ ((∃ x kk, i = .se x kk ∨ i = .sne x kk) ∨ (∃ x y, i = .seReg x y ∨ i = .sneReg x y) ∨
      ∃ x, i = .skp x ∨ i = .sknp x)) ∨
    (∃ nnn, (i = .jp nnn ∨ i = .call nnn) ∧ t.pc = nnn) ∨
    (∃ nnn, i = .jpV0 nnn ∧ t.pc.toNat = (nnn.toNat + (s.getV 0).toNat) % 4096) ∨
    (i = .ret ∧ ∃ j : Fin 16, j.val + 1 = s.sp.val ∧ t.pc = s.stack[j]) ∨
    (t.pc = s.pc ∧ (t.run = .waitingForKey ∨ t.run = .halted))

/-- What no instruction reads makes no difference (10_state.md R37, R44; decisions D10, D16): two machines that differ
only in the stack entries at SP and above, and in WAITREG while they do not wait, step to two such machines again, with
the same result. Both take the same draws (log 2, log 3). -/
def Obligations.DeadStateIsNotObservable : Prop :=
  ∀ s s' t : State, SameVisible s s' → step s = .next t →
    ∃ t', step s' = .next t' ∧ SameVisible t t' ∧ stepResult s' t' = stepResult s t

/-- A program cannot read the sound timer (44_timers_keys.md R223): two machines that differ only in ST step to machines
that differ only in ST, with the same result. Both take the same draws (log 2, log 3). -/
def Obligations.SoundTimerIsNeverRead : Prop :=
  ∀ (s t : State) (b : Byte), step s = .next t →
    ∃ t', step { s with st := b } = .next t' ∧ { t' with st := t.st } = t ∧
      stepResult { s with st := b } t' = stepResult s t
end

