-- ==== Sys2Proof/Laws/Assembler.lean ====
section
/-! SUPPORT. The notation read back: pieces, numbers, operands, lists of them and items (30_encoding.md R106). -/

namespace Sys2Proof.Machine

/-! ## Pieces -/

theorem splitAtChar_of_not_mem {sep : Char} {cs : List Char} (h : sep ∉ cs) : splitAtChar sep cs = [cs] := by
  induction cs with
  | nil => rfl
  | cons c cs ih =>
    simp only [List.mem_cons, not_or] at h
    simp [splitAtChar, Ne.symm h.1, ih h.2]

theorem splitAtChar_append {sep : Char} {cs : List Char} (h : sep ∉ cs) (rest : List Char) :
    splitAtChar sep (cs ++ sep :: rest) = cs :: splitAtChar sep rest := by
  induction cs with
  | nil => simp [splitAtChar]
  | cons c cs ih =>
    simp only [List.mem_cons, not_or] at h
    simp [splitAtChar, Ne.symm h.1, ih h.2]

theorem dropWhile_isBlank_of {cs : List Char} (h : ∀ c, cs.head? = some c → isBlank c = false) :
    cs.dropWhile isBlank = cs := by
  cases cs with
  | nil => rfl
  | cons c cs => simp [h c rfl]

/-- Text with no white space at either end is its own trimmed text. -/
theorem trim_of {cs : List Char} (hd : ∀ c, cs.head? = some c → isBlank c = false)
    (tl : ∀ c, cs.getLast? = some c → isBlank c = false) : trim cs = cs := by
  have hr : cs.reverse.dropWhile isBlank = cs.reverse :=
    dropWhile_isBlank_of fun c hc => tl c (by simpa [List.head?_reverse] using hc)
  rw [trim, dropWhile_isBlank_of hd, hr, List.reverse_reverse]

/-- Text without white space is its own trimmed text. -/
theorem trim_of_all {cs : List Char} (h : ∀ c ∈ cs, isBlank c = false) : trim cs = cs :=
  trim_of (fun c hc => h c (List.mem_of_mem_head? hc)) fun c hc => h c (List.mem_of_getLast? hc)

@[simp] theorem trim_space (cs : List Char) : trim (' ' :: cs) = trim cs := rfl

/-! ## Numbers -/

/-- A hexadecimal digit written is read back. -/
theorem hexDigit_digitChar : ∀ n < 16, hexDigit (digitChar n) = some n := by decide

/-- A number written with up to four hexadecimal digits that hold it is read back. -/
theorem readNumber_hexText {k n : Nat} (hk : k = 1 ∨ k = 2 ∨ k = 3 ∨ k = 4) (hn : n < 16 ^ k) :
    readNumber (hexText k n) = some n := by
  have hd : ∀ m, hexDigit (digitChar (m % 16)) = some (m % 16) := fun m =>
    hexDigit_digitChar _ (Nat.mod_lt _ (by decide))
  rcases hk with rfl | rfl | rfl | rfl <;>
    simp [hexText, readNumber, List.range_succ, readDigits, hd, Nat.mod_lt] <;> omega

/-! ## Operands -/

/-- What an instruction's operands are: registers, fixed names, and numbers that `digits` hexadecimal digits hold. -/
def AsmOperand.Printable (digits : Nat) : AsmOperand → Prop
  | .num n => n < 16 ^ digits
  | .label _ => False
  | .reg _ | .i | .dt | .st | .k | .f | .b | .memI => True

/-- The characters of a printed operand: none ends a piece, a line or a comment, and none is white space. -/
theorem AsmOperand.text_chars {digits : Nat} {o : AsmOperand} (ho : o.Printable digits) :
    ∀ c ∈ o.text digits, isBlank c = false ∧ c ≠ ',' ∧ c ≠ ';' ∧ c ≠ '\n' := by
  have hd : ∀ m < 16, isBlank (digitChar m) = false ∧ digitChar m ≠ ',' ∧ digitChar m ≠ ';' ∧ digitChar m ≠ '\n' := by
    decide
  cases o with
  | reg x =>
    intro c hc
    simp only [AsmOperand.text, List.mem_cons, List.not_mem_nil, or_false] at hc
    rcases hc with rfl | rfl
    · decide
    · exact hd _ x.isLt
  | num n =>
    intro c hc
    simp only [AsmOperand.text, hexText, List.mem_cons, List.mem_map] at hc
    rcases hc with rfl | rfl | ⟨j, -, rfl⟩
    · decide
    · decide
    · exact hd _ (Nat.mod_lt _ (by decide))
  | label name => exact ho.elim
  | i | dt | st | k | f | b | memI =>
    intro c hc
    have hall : ∀ cs ∈ fixedOperands.map (·.1), cs.all fun c => !isBlank c && c ≠ ',' && c ≠ ';' && c ≠ '\n' := by
      decide
    have := List.all_eq_true.mp (hall _ (by simp [AsmOperand.text, fixedOperands])) c hc
    simpa [and_assoc] using this

/-- A printed operand is read back. -/
theorem readOperand_text {digits : Nat} (hk : digits = 1 ∨ digits = 2 ∨ digits = 3) {o : AsmOperand}
    (ho : o.Printable digits) : readOperand (o.text digits) = some o := by
  cases o with
  | reg x =>
    have : ∀ x : Reg, readOperand ['V', digitChar x.val] = some (.reg x) := by decide
    exact this x
  | num n =>
    have hn := readNumber_hexText (by omega) ho
    have hr : readReg (hexText digits n) = none := by
      rcases hk with rfl | rfl | rfl <;> simp [hexText, List.range_succ, readReg]
    have hf : fixedOperands.lookup (hexText digits n) = none := by
      simp [fixedOperands, hexText, List.lookup, beq_eq_decide]
    simp only [AsmOperand.text, readOperand, hr, hf, hn]
  | label name => exact ho.elim
  | i | dt | st | k | f | b | memI =>
    simp only [AsmOperand.text]
    decide

/-- The text of operands, after the first a comma and a space before each. -/
def operandsText (digits : Nat) : List AsmOperand → List Char
  | [] => []
  | [o] => o.text digits
  | o :: os => o.text digits ++ ',' :: ' ' :: operandsText digits os

theorem AsmOperand.text_ne_nil {digits : Nat} {o : AsmOperand} (ho : o.Printable digits) : o.text digits ≠ [] := by
  cases o <;> first | exact ho.elim | simp [AsmOperand.text, hexText]

/-- The operands of a line are read back, one a piece. -/
theorem readPieces_operandsText {digits : Nat} (hk : digits = 1 ∨ digits = 2 ∨ digits = 3) {os : List AsmOperand}
    (hne : os ≠ []) (ho : ∀ o ∈ os, o.Printable digits) :
    ((splitAtChar ',' (operandsText digits os)).map fun p => readOperand (trim p)) = os.map some ∧
    ((splitAtChar ',' (' ' :: operandsText digits os)).map fun p => readOperand (trim p)) = os.map some := by
  induction os with
  | nil => exact absurd rfl hne
  | cons o os ih =>
    have hc := AsmOperand.text_chars (ho o List.mem_cons_self)
    have hm : ',' ∉ o.text digits := fun h => (hc _ h).2.1 rfl
    have hm' : ',' ∉ ' ' :: o.text digits := by simpa using hm
    have hr : readOperand (trim (o.text digits)) = some o := by
      rw [trim_of_all fun c h => (hc c h).1, readOperand_text hk (ho o List.mem_cons_self)]
    cases os with
    | nil => simp [operandsText, splitAtChar_of_not_mem hm, splitAtChar_of_not_mem hm', hr]
    | cons o' os =>
      have hi := (ih (by simp) fun p hp => ho p (List.mem_cons_of_mem _ hp)).2
      simp only [operandsText, ← List.cons_append]
      rw [splitAtChar_append hm, splitAtChar_append hm']
      simp only [List.map_cons, trim_space, hr] at hi ⊢
      simpa using hi

/-! ## Directives -/

/-- An address operand that is a number is any address of the machine, and nothing else (30_encoding.md R106). -/
theorem asAddr_num (sym : Symbols) (n : Nat) :
    asAddr sym (.num n) = if n < 4096 then some (BitVec.ofNat 12 n) else none := rfl

/-- An address operand that is a label is the label's address, where that is known and in the machine. -/
theorem asAddr_label {sym : Symbols} {name : List Char} {n : Nat} (h : sym.lookup name = some (some n))
    (hn : n < 4096) : asAddr sym (.label name) = some (BitVec.ofNat 12 n) := by
  simp [asAddr, h, hn]

/-- An ORG whose operand is an address emits nothing and goes there, from wherever it stands. -/
theorem AsmItem.org_spec {sym : Symbols} {a : AsmOperand} {b : Addr} (h : asAddr sym a = some b) (here : Option Nat) :
    (AsmItem.org a).bytes sym = some [] ∧ (AsmItem.org a).next sym here = some b.toNat := by
  simp [AsmItem.bytes, AsmItem.next, h]

/-! ## Instructions -/

/-- The operands of an instruction's text are those of `operandsText`. -/
theorem operandsText_cons (digits : Nat) (o : AsmOperand) (os : List AsmOperand) :
    operandsText digits (o :: os) = o.text digits ++ (os.map fun p => ", ".toList ++ p.text digits).flatten := by
  induction os generalizing o with
  | nil => simp [operandsText]
  | cons p os ih =>
    change o.text digits ++ ',' :: ' ' :: operandsText digits (p :: os) = _
    rw [ih p]
    simp

/-- An instruction's numbers fit the digits they are written with. -/
theorem instrOperands_printable (i : Instr) : ∀ o ∈ instrOperands i, o.Printable (instrDigits i) := by
  cases i <;> simp only [instrOperands, instrDigits] <;> (try split) <;> simp [AsmOperand.Printable] <;>
    (rename_i a; have := a.isLt; omega)

theorem instrDigits_cases (i : Instr) : instrDigits i = 1 ∨ instrDigits i = 2 ∨ instrDigits i = 3 := by
  cases i <;> simp [instrDigits]

/-- The spelling of a mnemonic: capitals, read back as that mnemonic, and no directive. -/
theorem Mnemonic.text_spec (m : Mnemonic) :
    m.text ≠ [] ∧ (m.text.all fun c => identChar c && !isBlank c && c ≠ ';' && c ≠ '\n') = true ∧
    mnemonicNames.lookup m.text = some m ∧
    m.text ≠ "DB".toList ∧ m.text ≠ "DW".toList ∧ m.text ≠ "ORG".toList := by
  cases m <;> decide

/-- A mnemonic and operands that are read are an instruction item. -/
theorem readItem_text {m : Mnemonic} {rest : List Char} {ops : List AsmOperand}
    (h : readList readOperand rest = some ops) (hb : rest = [] ∨ ∃ cs, rest = ' ' :: cs) :
    readItem (m.text ++ rest) = some (.instr m ops) := by
  obtain ⟨-, hall, hl, hdb, hdw, horg⟩ := m.text_spec
  have hc : ∀ c ∈ m.text, (!isBlank c) = true := by
    intro c hc
    have := List.all_eq_true.mp hall c hc
    simp only [Bool.and_eq_true] at this
    exact this.1.1.2
  have hname : (m.text ++ rest).takeWhile (fun c => !isBlank c) = m.text := by
    rw [List.takeWhile_append_of_pos hc]
    rcases hb with rfl | ⟨cs, rfl⟩ <;> simp [isBlank]
  have hrest : (m.text ++ rest).dropWhile (fun c => !isBlank c) = rest := by
    rw [List.dropWhile_append_of_pos hc]
    rcases hb with rfl | ⟨cs, rfl⟩ <;> simp [isBlank]
  simp only [readItem, hname, hrest, hdb, hdw, horg, if_false, hl, h, Option.map_some]

/-- A text of one line, an item that needs no label, is assembled as the bytes of its item from 0x200. -/
theorem assemble_line {text : List Char} {it : AsmItem} {bs : List Byte}
    (hl : readLine text = some { label := none, item := some it }) (hn : '\n' ∉ text)
    (hb : it.bytes [] = some bs) : assemble text = some (cellsFrom 0x200 bs) := by
  have hr : readLines text = some [{ label := none, item := some it }] := by
    simp [readLines, splitAtChar_of_not_mem hn, hl]
  obtain ⟨after, ha⟩ : ∃ after, it.next [] (some 0x200) = some after := by
    cases it with
    | org a =>
      simp only [AsmItem.bytes, Option.map_eq_some_iff] at hb
      obtain ⟨b, hb, -⟩ := hb
      exact ⟨b.toNat, by simp [AsmItem.next, hb]⟩
    | instr m ops => exact ⟨_, rfl⟩
    | db bs => exact ⟨_, rfl⟩
    | dw ws => exact ⟨_, rfl⟩
  simp [assemble, hr, assembleLines, resolveLabels, labelPasses, emitLines, collectLabels, hb, ha]

end Sys2Proof.Machine
end

