-- ==== Sys2Proof/Laws/Decode.lean ====
section
/-! SUPPORT. The fields of each instruction format, and the formats as numbers (30_encoding.md R91). -/

namespace Sys2Proof

/-! ## The fields of a word, in numbers -/

theorem opField_toNat (w : Word) : (opField w).toNat = w.toNat / 4096 := by
  have := w.isLt
  simp [opField, Nat.shiftRight_eq_div_pow]
  omega

theorem xField_val (w : Word) : (xField w).val = w.toNat / 256 % 16 := by
  simp [xField, Nat.shiftRight_eq_div_pow]

theorem yField_val (w : Word) : (yField w).val = w.toNat / 16 % 16 := by
  simp [yField, Nat.shiftRight_eq_div_pow]

theorem nField_toNat (w : Word) : (nField w).toNat = w.toNat % 16 := by simp [nField]

theorem kkField_toNat (w : Word) : (kkField w).toNat = w.toNat % 256 := by simp [kkField]

theorem nnnField_toNat (w : Word) : (nnnField w).toNat = w.toNat % 4096 := by simp [nnnField]

/-! ## The formats, in numbers -/

theorem append_toNat {m n : Nat} (a : BitVec m) (b : BitVec n) : (a ++ b).toNat = a.toNat * 2 ^ n + b.toNat := by
  rw [BitVec.toNat_append, ← Nat.shiftLeft_add_eq_or_of_lt b.isLt, Nat.shiftLeft_eq]

theorem formA_toNat (op : BitVec 4) (nnn : Addr) : (formA op nnn).toNat = op.toNat * 4096 + nnn.toNat :=
  append_toNat op nnn

theorem formXK_toNat (op : BitVec 4) (x : Reg) (kk : Byte) :
    (formXK op x kk).toNat = op.toNat * 4096 + x.val * 256 + kk.toNat := by
  refine (append_toNat (op ++ BitVec.ofFin (w := 4) x) kk).trans ?_
  rw [append_toNat]
  show (op.toNat * 2 ^ 4 + x.val) * 2 ^ 8 + kk.toNat = _
  omega

theorem formXYN_toNat (op : BitVec 4) (x y : Reg) (n : BitVec 4) :
    (formXYN op x y n).toNat = op.toNat * 4096 + x.val * 256 + y.val * 16 + n.toNat := by
  refine (append_toNat (op ++ BitVec.ofFin (w := 4) x ++ BitVec.ofFin (w := 4) y) n).trans ?_
  rw [append_toNat, append_toNat]
  show ((op.toNat * 2 ^ 4 + x.val) * 2 ^ 4 + y.val) * 2 ^ 4 + n.toNat = _
  omega

theorem wordOfBytes_toNat (hi lo : Byte) : (wordOfBytes hi lo).toNat = 256 * hi.toNat + lo.toNat := by
  refine (append_toNat hi lo).trans ?_
  omega

/-! ## The numbered words of Safety.lean are the formats -/

theorem formA_eq_wordA (op : BitVec 4) (nnn : Addr) : Machine.wordA op.toNat nnn = formA op nnn := by
  have := op.isLt
  have := nnn.isLt
  apply BitVec.eq_of_toNat_eq
  rw [formA_toNat, Machine.wordA, BitVec.toNat_ofNat]
  omega

theorem formXK_eq_wordXK (op : BitVec 4) (x : Reg) (kk : Byte) : Machine.wordXK op.toNat x kk.toNat = formXK op x kk := by
  have := op.isLt
  have := kk.isLt
  have := x.isLt
  apply BitVec.eq_of_toNat_eq
  rw [formXK_toNat, Machine.wordXK, BitVec.toNat_ofNat]
  omega

theorem formXYN_eq_wordXYN (op : BitVec 4) (x y : Reg) (n : BitVec 4) :
    Machine.wordXYN op.toNat x y n.toNat = formXYN op x y n := by
  have := op.isLt
  have := n.isLt
  have := x.isLt
  have := y.isLt
  apply BitVec.eq_of_toNat_eq
  rw [formXYN_toNat, Machine.wordXYN, BitVec.toNat_ofNat]
  omega

/-! ## The fields of each format -/

variable (op n : BitVec 4) (x y : Reg) (kk : Byte) (nnn : Addr)

@[simp] theorem opField_formA : opField (formA op nnn) = op := by
  have := nnn.isLt
  apply BitVec.eq_of_toNat_eq; rw [opField_toNat, formA_toNat]; omega

@[simp] theorem nnnField_formA : nnnField (formA op nnn) = nnn := by
  have := nnn.isLt
  apply BitVec.eq_of_toNat_eq; rw [nnnField_toNat, formA_toNat]; omega

@[simp] theorem opField_formXK : opField (formXK op x kk) = op := by
  have := kk.isLt
  have := x.isLt
  apply BitVec.eq_of_toNat_eq; rw [opField_toNat, formXK_toNat]; omega

@[simp] theorem xField_formXK : xField (formXK op x kk) = x := by
  have := kk.isLt
  have := x.isLt
  apply Fin.ext; rw [xField_val, formXK_toNat]; omega

@[simp] theorem kkField_formXK : kkField (formXK op x kk) = kk := by
  have := kk.isLt
  apply BitVec.eq_of_toNat_eq; rw [kkField_toNat, formXK_toNat]; omega

@[simp] theorem opField_formXYN : opField (formXYN op x y n) = op := by
  have := n.isLt
  have := x.isLt
  have := y.isLt
  apply BitVec.eq_of_toNat_eq; rw [opField_toNat, formXYN_toNat]; omega

@[simp] theorem xField_formXYN : xField (formXYN op x y n) = x := by
  have := n.isLt
  have := x.isLt
  have := y.isLt
  apply Fin.ext; rw [xField_val, formXYN_toNat]; omega

@[simp] theorem yField_formXYN : yField (formXYN op x y n) = y := by
  have := n.isLt
  have := y.isLt
  apply Fin.ext; rw [yField_val, formXYN_toNat]; omega

@[simp] theorem nField_formXYN : nField (formXYN op x y n) = n := by
  have := n.isLt
  apply BitVec.eq_of_toNat_eq; rw [nField_toNat, formXYN_toNat]; omega

/-! ## A word is its fields in any format -/

theorem formA_fields (w : Word) : formA (opField w) (nnnField w) = w := by
  apply BitVec.eq_of_toNat_eq; rw [formA_toNat, opField_toNat, nnnField_toNat]; omega

theorem formXK_fields (w : Word) : formXK (opField w) (xField w) (kkField w) = w := by
  apply BitVec.eq_of_toNat_eq; rw [formXK_toNat, opField_toNat, xField_val, kkField_toNat]; omega

theorem formXYN_fields (w : Word) : formXYN (opField w) (xField w) (yField w) (nField w) = w := by
  apply BitVec.eq_of_toNat_eq; rw [formXYN_toNat, opField_toNat, xField_val, yField_val, nField_toNat]; omega

end Sys2Proof
end

