-- ==== Sys2Proof/Laws/State.lean ====
section
/-! SUPPORT. One lemma per field per update of the state, so that no proof unfolds a record update. -/

namespace Sys2Proof.Machine

variable (s : State)

/-! ## setV -/

@[simp] theorem State.setV_mem (x : Reg) (b : Byte) : (s.setV x b).mem = s.mem := rfl
@[simp] theorem State.setV_v (x : Reg) (b : Byte) : (s.setV x b).v = s.v.set x.val b x.isLt := rfl
@[simp] theorem State.setV_i (x : Reg) (b : Byte) : (s.setV x b).i = s.i := rfl
@[simp] theorem State.setV_pc (x : Reg) (b : Byte) : (s.setV x b).pc = s.pc := rfl
@[simp] theorem State.setV_stack (x : Reg) (b : Byte) : (s.setV x b).stack = s.stack := rfl
@[simp] theorem State.setV_sp (x : Reg) (b : Byte) : (s.setV x b).sp = s.sp := rfl
@[simp] theorem State.setV_dt (x : Reg) (b : Byte) : (s.setV x b).dt = s.dt := rfl
@[simp] theorem State.setV_st (x : Reg) (b : Byte) : (s.setV x b).st = s.st := rfl
@[simp] theorem State.setV_fb (x : Reg) (b : Byte) : (s.setV x b).fb = s.fb := rfl
@[simp] theorem State.setV_key (x : Reg) (b : Byte) : (s.setV x b).key = s.key := rfl
@[simp] theorem State.setV_run (x : Reg) (b : Byte) : (s.setV x b).run = s.run := rfl
@[simp] theorem State.setV_waitreg (x : Reg) (b : Byte) : (s.setV x b).waitreg = s.waitreg := rfl
@[simp] theorem State.setV_fault (x : Reg) (b : Byte) : (s.setV x b).fault = s.fault := rfl
@[simp] theorem State.setV_loaded (x : Reg) (b : Byte) : (s.setV x b).loaded = s.loaded := rfl
@[simp] theorem State.setV_cfg (x : Reg) (b : Byte) : (s.setV x b).cfg = s.cfg := rfl
@[simp] theorem State.setV_draws (x : Reg) (b : Byte) : (s.setV x b).draws = s.draws := rfl

/-! ## setI -/

@[simp] theorem State.setI_mem (a : Addr) : (s.setI a).mem = s.mem := rfl
@[simp] theorem State.setI_v (a : Addr) : (s.setI a).v = s.v := rfl
@[simp] theorem State.setI_i (a : Addr) : (s.setI a).i = a := rfl
@[simp] theorem State.setI_pc (a : Addr) : (s.setI a).pc = s.pc := rfl
@[simp] theorem State.setI_stack (a : Addr) : (s.setI a).stack = s.stack := rfl
@[simp] theorem State.setI_sp (a : Addr) : (s.setI a).sp = s.sp := rfl
@[simp] theorem State.setI_dt (a : Addr) : (s.setI a).dt = s.dt := rfl
@[simp] theorem State.setI_st (a : Addr) : (s.setI a).st = s.st := rfl
@[simp] theorem State.setI_fb (a : Addr) : (s.setI a).fb = s.fb := rfl
@[simp] theorem State.setI_key (a : Addr) : (s.setI a).key = s.key := rfl
@[simp] theorem State.setI_run (a : Addr) : (s.setI a).run = s.run := rfl
@[simp] theorem State.setI_waitreg (a : Addr) : (s.setI a).waitreg = s.waitreg := rfl
@[simp] theorem State.setI_fault (a : Addr) : (s.setI a).fault = s.fault := rfl
@[simp] theorem State.setI_loaded (a : Addr) : (s.setI a).loaded = s.loaded := rfl
@[simp] theorem State.setI_cfg (a : Addr) : (s.setI a).cfg = s.cfg := rfl
@[simp] theorem State.setI_draws (a : Addr) : (s.setI a).draws = s.draws := rfl

/-! ## setPc -/

@[simp] theorem State.setPc_mem (a : Addr) : (s.setPc a).mem = s.mem := rfl
@[simp] theorem State.setPc_v (a : Addr) : (s.setPc a).v = s.v := rfl
@[simp] theorem State.setPc_i (a : Addr) : (s.setPc a).i = s.i := rfl
@[simp] theorem State.setPc_pc (a : Addr) : (s.setPc a).pc = a := rfl
@[simp] theorem State.setPc_stack (a : Addr) : (s.setPc a).stack = s.stack := rfl
@[simp] theorem State.setPc_sp (a : Addr) : (s.setPc a).sp = s.sp := rfl
@[simp] theorem State.setPc_dt (a : Addr) : (s.setPc a).dt = s.dt := rfl
@[simp] theorem State.setPc_st (a : Addr) : (s.setPc a).st = s.st := rfl
@[simp] theorem State.setPc_fb (a : Addr) : (s.setPc a).fb = s.fb := rfl
@[simp] theorem State.setPc_key (a : Addr) : (s.setPc a).key = s.key := rfl
@[simp] theorem State.setPc_run (a : Addr) : (s.setPc a).run = s.run := rfl
@[simp] theorem State.setPc_waitreg (a : Addr) : (s.setPc a).waitreg = s.waitreg := rfl
@[simp] theorem State.setPc_fault (a : Addr) : (s.setPc a).fault = s.fault := rfl
@[simp] theorem State.setPc_loaded (a : Addr) : (s.setPc a).loaded = s.loaded := rfl
@[simp] theorem State.setPc_cfg (a : Addr) : (s.setPc a).cfg = s.cfg := rfl
@[simp] theorem State.setPc_draws (a : Addr) : (s.setPc a).draws = s.draws := rfl

/-! ## setDt -/

@[simp] theorem State.setDt_mem (b : Byte) : (s.setDt b).mem = s.mem := rfl
@[simp] theorem State.setDt_v (b : Byte) : (s.setDt b).v = s.v := rfl
@[simp] theorem State.setDt_i (b : Byte) : (s.setDt b).i = s.i := rfl
@[simp] theorem State.setDt_pc (b : Byte) : (s.setDt b).pc = s.pc := rfl
@[simp] theorem State.setDt_stack (b : Byte) : (s.setDt b).stack = s.stack := rfl
@[simp] theorem State.setDt_sp (b : Byte) : (s.setDt b).sp = s.sp := rfl
@[simp] theorem State.setDt_dt (b : Byte) : (s.setDt b).dt = b := rfl
@[simp] theorem State.setDt_st (b : Byte) : (s.setDt b).st = s.st := rfl
@[simp] theorem State.setDt_fb (b : Byte) : (s.setDt b).fb = s.fb := rfl
@[simp] theorem State.setDt_key (b : Byte) : (s.setDt b).key = s.key := rfl
@[simp] theorem State.setDt_run (b : Byte) : (s.setDt b).run = s.run := rfl
@[simp] theorem State.setDt_waitreg (b : Byte) : (s.setDt b).waitreg = s.waitreg := rfl
@[simp] theorem State.setDt_fault (b : Byte) : (s.setDt b).fault = s.fault := rfl
@[simp] theorem State.setDt_loaded (b : Byte) : (s.setDt b).loaded = s.loaded := rfl
@[simp] theorem State.setDt_cfg (b : Byte) : (s.setDt b).cfg = s.cfg := rfl
@[simp] theorem State.setDt_draws (b : Byte) : (s.setDt b).draws = s.draws := rfl

/-! ## setSt -/

@[simp] theorem State.setSt_mem (b : Byte) : (s.setSt b).mem = s.mem := rfl
@[simp] theorem State.setSt_v (b : Byte) : (s.setSt b).v = s.v := rfl
@[simp] theorem State.setSt_i (b : Byte) : (s.setSt b).i = s.i := rfl
@[simp] theorem State.setSt_pc (b : Byte) : (s.setSt b).pc = s.pc := rfl
@[simp] theorem State.setSt_stack (b : Byte) : (s.setSt b).stack = s.stack := rfl
@[simp] theorem State.setSt_sp (b : Byte) : (s.setSt b).sp = s.sp := rfl
@[simp] theorem State.setSt_dt (b : Byte) : (s.setSt b).dt = s.dt := rfl
@[simp] theorem State.setSt_st (b : Byte) : (s.setSt b).st = b := rfl
@[simp] theorem State.setSt_fb (b : Byte) : (s.setSt b).fb = s.fb := rfl
@[simp] theorem State.setSt_key (b : Byte) : (s.setSt b).key = s.key := rfl
@[simp] theorem State.setSt_run (b : Byte) : (s.setSt b).run = s.run := rfl
@[simp] theorem State.setSt_waitreg (b : Byte) : (s.setSt b).waitreg = s.waitreg := rfl
@[simp] theorem State.setSt_fault (b : Byte) : (s.setSt b).fault = s.fault := rfl
@[simp] theorem State.setSt_loaded (b : Byte) : (s.setSt b).loaded = s.loaded := rfl
@[simp] theorem State.setSt_cfg (b : Byte) : (s.setSt b).cfg = s.cfg := rfl
@[simp] theorem State.setSt_draws (b : Byte) : (s.setSt b).draws = s.draws := rfl

/-! ## setFb -/

@[simp] theorem State.setFb_mem (fb : Framebuffer) : (s.setFb fb).mem = s.mem := rfl
@[simp] theorem State.setFb_v (fb : Framebuffer) : (s.setFb fb).v = s.v := rfl
@[simp] theorem State.setFb_i (fb : Framebuffer) : (s.setFb fb).i = s.i := rfl
@[simp] theorem State.setFb_pc (fb : Framebuffer) : (s.setFb fb).pc = s.pc := rfl
@[simp] theorem State.setFb_stack (fb : Framebuffer) : (s.setFb fb).stack = s.stack := rfl
@[simp] theorem State.setFb_sp (fb : Framebuffer) : (s.setFb fb).sp = s.sp := rfl
@[simp] theorem State.setFb_dt (fb : Framebuffer) : (s.setFb fb).dt = s.dt := rfl
@[simp] theorem State.setFb_st (fb : Framebuffer) : (s.setFb fb).st = s.st := rfl
@[simp] theorem State.setFb_fb (fb : Framebuffer) : (s.setFb fb).fb = fb := rfl
@[simp] theorem State.setFb_key (fb : Framebuffer) : (s.setFb fb).key = s.key := rfl
@[simp] theorem State.setFb_run (fb : Framebuffer) : (s.setFb fb).run = s.run := rfl
@[simp] theorem State.setFb_waitreg (fb : Framebuffer) : (s.setFb fb).waitreg = s.waitreg := rfl
@[simp] theorem State.setFb_fault (fb : Framebuffer) : (s.setFb fb).fault = s.fault := rfl
@[simp] theorem State.setFb_loaded (fb : Framebuffer) : (s.setFb fb).loaded = s.loaded := rfl
@[simp] theorem State.setFb_cfg (fb : Framebuffer) : (s.setFb fb).cfg = s.cfg := rfl
@[simp] theorem State.setFb_draws (fb : Framebuffer) : (s.setFb fb).draws = s.draws := rfl

/-! ## writeByte -/

@[simp] theorem State.writeByte_mem (a : Addr) (b : Byte) : (s.writeByte a b).mem = Memory.write s.cfg.font s.mem a.toNat b := rfl
@[simp] theorem State.writeByte_v (a : Addr) (b : Byte) : (s.writeByte a b).v = s.v := rfl
@[simp] theorem State.writeByte_i (a : Addr) (b : Byte) : (s.writeByte a b).i = s.i := rfl
@[simp] theorem State.writeByte_pc (a : Addr) (b : Byte) : (s.writeByte a b).pc = s.pc := rfl
@[simp] theorem State.writeByte_stack (a : Addr) (b : Byte) : (s.writeByte a b).stack = s.stack := rfl
@[simp] theorem State.writeByte_sp (a : Addr) (b : Byte) : (s.writeByte a b).sp = s.sp := rfl
@[simp] theorem State.writeByte_dt (a : Addr) (b : Byte) : (s.writeByte a b).dt = s.dt := rfl
@[simp] theorem State.writeByte_st (a : Addr) (b : Byte) : (s.writeByte a b).st = s.st := rfl
@[simp] theorem State.writeByte_fb (a : Addr) (b : Byte) : (s.writeByte a b).fb = s.fb := rfl
@[simp] theorem State.writeByte_key (a : Addr) (b : Byte) : (s.writeByte a b).key = s.key := rfl
@[simp] theorem State.writeByte_run (a : Addr) (b : Byte) : (s.writeByte a b).run = s.run := rfl
@[simp] theorem State.writeByte_waitreg (a : Addr) (b : Byte) : (s.writeByte a b).waitreg = s.waitreg := rfl
@[simp] theorem State.writeByte_fault (a : Addr) (b : Byte) : (s.writeByte a b).fault = s.fault := rfl
@[simp] theorem State.writeByte_loaded (a : Addr) (b : Byte) : (s.writeByte a b).loaded = s.loaded := rfl
@[simp] theorem State.writeByte_cfg (a : Addr) (b : Byte) : (s.writeByte a b).cfg = s.cfg := rfl
@[simp] theorem State.writeByte_draws (a : Addr) (b : Byte) : (s.writeByte a b).draws = s.draws := rfl

/-! ## advance -/

@[simp] theorem State.advance_mem : (s.advance).mem = s.mem := rfl
@[simp] theorem State.advance_v : (s.advance).v = s.v := rfl
@[simp] theorem State.advance_i : (s.advance).i = s.i := rfl
@[simp] theorem State.advance_pc : (s.advance).pc = s.pc + 2#12 := rfl
@[simp] theorem State.advance_stack : (s.advance).stack = s.stack := rfl
@[simp] theorem State.advance_sp : (s.advance).sp = s.sp := rfl
@[simp] theorem State.advance_dt : (s.advance).dt = s.dt := rfl
@[simp] theorem State.advance_st : (s.advance).st = s.st := rfl
@[simp] theorem State.advance_fb : (s.advance).fb = s.fb := rfl
@[simp] theorem State.advance_key : (s.advance).key = s.key := rfl
@[simp] theorem State.advance_run : (s.advance).run = s.run := rfl
@[simp] theorem State.advance_waitreg : (s.advance).waitreg = s.waitreg := rfl
@[simp] theorem State.advance_fault : (s.advance).fault = s.fault := rfl
@[simp] theorem State.advance_loaded : (s.advance).loaded = s.loaded := rfl
@[simp] theorem State.advance_cfg : (s.advance).cfg = s.cfg := rfl
@[simp] theorem State.advance_draws : (s.advance).draws = s.draws := rfl

/-! ## decodeFailure -/

@[simp] theorem State.decodeFailure_mem : (s.decodeFailure).mem = s.mem := rfl
@[simp] theorem State.decodeFailure_v : (s.decodeFailure).v = s.v := rfl
@[simp] theorem State.decodeFailure_i : (s.decodeFailure).i = s.i := rfl
@[simp] theorem State.decodeFailure_pc : (s.decodeFailure).pc = s.pc + 2#12 := rfl
@[simp] theorem State.decodeFailure_stack : (s.decodeFailure).stack = s.stack := rfl
@[simp] theorem State.decodeFailure_sp : (s.decodeFailure).sp = s.sp := rfl
@[simp] theorem State.decodeFailure_dt : (s.decodeFailure).dt = s.dt := rfl
@[simp] theorem State.decodeFailure_st : (s.decodeFailure).st = s.st := rfl
@[simp] theorem State.decodeFailure_fb : (s.decodeFailure).fb = s.fb := rfl
@[simp] theorem State.decodeFailure_key : (s.decodeFailure).key = s.key := rfl
@[simp] theorem State.decodeFailure_run : (s.decodeFailure).run = s.run := rfl
@[simp] theorem State.decodeFailure_waitreg : (s.decodeFailure).waitreg = s.waitreg := rfl
@[simp] theorem State.decodeFailure_fault : (s.decodeFailure).fault = s.fault := rfl
@[simp] theorem State.decodeFailure_loaded : (s.decodeFailure).loaded = s.loaded := rfl
@[simp] theorem State.decodeFailure_cfg : (s.decodeFailure).cfg = s.cfg := rfl
@[simp] theorem State.decodeFailure_draws : (s.decodeFailure).draws = s.draws := rfl

/-! ## skipIf -/

@[simp] theorem State.skipIf_mem (c : Bool) : (s.skipIf c).mem = s.mem := rfl
@[simp] theorem State.skipIf_v (c : Bool) : (s.skipIf c).v = s.v := rfl
@[simp] theorem State.skipIf_i (c : Bool) : (s.skipIf c).i = s.i := rfl
@[simp] theorem State.skipIf_pc (c : Bool) : (s.skipIf c).pc = if c then s.pc + 4#12 else s.pc + 2#12 := rfl
@[simp] theorem State.skipIf_stack (c : Bool) : (s.skipIf c).stack = s.stack := rfl
@[simp] theorem State.skipIf_sp (c : Bool) : (s.skipIf c).sp = s.sp := rfl
@[simp] theorem State.skipIf_dt (c : Bool) : (s.skipIf c).dt = s.dt := rfl
@[simp] theorem State.skipIf_st (c : Bool) : (s.skipIf c).st = s.st := rfl
@[simp] theorem State.skipIf_fb (c : Bool) : (s.skipIf c).fb = s.fb := rfl
@[simp] theorem State.skipIf_key (c : Bool) : (s.skipIf c).key = s.key := rfl
@[simp] theorem State.skipIf_run (c : Bool) : (s.skipIf c).run = s.run := rfl
@[simp] theorem State.skipIf_waitreg (c : Bool) : (s.skipIf c).waitreg = s.waitreg := rfl
@[simp] theorem State.skipIf_fault (c : Bool) : (s.skipIf c).fault = s.fault := rfl
@[simp] theorem State.skipIf_loaded (c : Bool) : (s.skipIf c).loaded = s.loaded := rfl
@[simp] theorem State.skipIf_cfg (c : Bool) : (s.skipIf c).cfg = s.cfg := rfl
@[simp] theorem State.skipIf_draws (c : Bool) : (s.skipIf c).draws = s.draws := rfl

/-! ## nextDraw -/

@[simp] theorem State.nextDraw_mem : (s.nextDraw).mem = s.mem := rfl
@[simp] theorem State.nextDraw_v : (s.nextDraw).v = s.v := rfl
@[simp] theorem State.nextDraw_i : (s.nextDraw).i = s.i := rfl
@[simp] theorem State.nextDraw_pc : (s.nextDraw).pc = s.pc := rfl
@[simp] theorem State.nextDraw_stack : (s.nextDraw).stack = s.stack := rfl
@[simp] theorem State.nextDraw_sp : (s.nextDraw).sp = s.sp := rfl
@[simp] theorem State.nextDraw_dt : (s.nextDraw).dt = s.dt := rfl
@[simp] theorem State.nextDraw_st : (s.nextDraw).st = s.st := rfl
@[simp] theorem State.nextDraw_fb : (s.nextDraw).fb = s.fb := rfl
@[simp] theorem State.nextDraw_key : (s.nextDraw).key = s.key := rfl
@[simp] theorem State.nextDraw_run : (s.nextDraw).run = s.run := rfl
@[simp] theorem State.nextDraw_waitreg : (s.nextDraw).waitreg = s.waitreg := rfl
@[simp] theorem State.nextDraw_fault : (s.nextDraw).fault = s.fault := rfl
@[simp] theorem State.nextDraw_loaded : (s.nextDraw).loaded = s.loaded := rfl
@[simp] theorem State.nextDraw_cfg : (s.nextDraw).cfg = s.cfg := rfl
@[simp] theorem State.nextDraw_draws : (s.nextDraw).draws = s.draws + 1 := rfl

/-! ## raiseFault -/

@[simp] theorem State.raiseFault_mem (c : FaultCause) : (s.raiseFault c).mem = s.mem := rfl
@[simp] theorem State.raiseFault_v (c : FaultCause) : (s.raiseFault c).v = s.v := rfl
@[simp] theorem State.raiseFault_i (c : FaultCause) : (s.raiseFault c).i = s.i := rfl
@[simp] theorem State.raiseFault_pc (c : FaultCause) : (s.raiseFault c).pc = s.pc := rfl
@[simp] theorem State.raiseFault_stack (c : FaultCause) : (s.raiseFault c).stack = s.stack := rfl
@[simp] theorem State.raiseFault_sp (c : FaultCause) : (s.raiseFault c).sp = s.sp := rfl
@[simp] theorem State.raiseFault_dt (c : FaultCause) : (s.raiseFault c).dt = s.dt := rfl
@[simp] theorem State.raiseFault_st (c : FaultCause) : (s.raiseFault c).st = s.st := rfl
@[simp] theorem State.raiseFault_fb (c : FaultCause) : (s.raiseFault c).fb = s.fb := rfl
@[simp] theorem State.raiseFault_key (c : FaultCause) : (s.raiseFault c).key = s.key := rfl
@[simp] theorem State.raiseFault_run (c : FaultCause) : (s.raiseFault c).run = .halted := rfl
@[simp] theorem State.raiseFault_waitreg (c : FaultCause) : (s.raiseFault c).waitreg = s.waitreg := rfl
@[simp] theorem State.raiseFault_fault (c : FaultCause) : (s.raiseFault c).fault = some c := rfl
@[simp] theorem State.raiseFault_loaded (c : FaultCause) : (s.raiseFault c).loaded = s.loaded := rfl
@[simp] theorem State.raiseFault_cfg (c : FaultCause) : (s.raiseFault c).cfg = s.cfg := rfl
@[simp] theorem State.raiseFault_draws (c : FaultCause) : (s.raiseFault c).draws = s.draws := rfl

/-! ## enterWait -/

@[simp] theorem State.enterWait_mem (x : Reg) : (s.enterWait x).mem = s.mem := rfl
@[simp] theorem State.enterWait_v (x : Reg) : (s.enterWait x).v = s.v := rfl
@[simp] theorem State.enterWait_i (x : Reg) : (s.enterWait x).i = s.i := rfl
@[simp] theorem State.enterWait_pc (x : Reg) : (s.enterWait x).pc = s.pc := rfl
@[simp] theorem State.enterWait_stack (x : Reg) : (s.enterWait x).stack = s.stack := rfl
@[simp] theorem State.enterWait_sp (x : Reg) : (s.enterWait x).sp = s.sp := rfl
@[simp] theorem State.enterWait_dt (x : Reg) : (s.enterWait x).dt = s.dt := rfl
@[simp] theorem State.enterWait_st (x : Reg) : (s.enterWait x).st = s.st := rfl
@[simp] theorem State.enterWait_fb (x : Reg) : (s.enterWait x).fb = s.fb := rfl
@[simp] theorem State.enterWait_key (x : Reg) : (s.enterWait x).key = s.key := rfl
@[simp] theorem State.enterWait_run (x : Reg) : (s.enterWait x).run = .waitingForKey := rfl
@[simp] theorem State.enterWait_waitreg (x : Reg) : (s.enterWait x).waitreg = x := rfl
@[simp] theorem State.enterWait_fault (x : Reg) : (s.enterWait x).fault = s.fault := rfl
@[simp] theorem State.enterWait_loaded (x : Reg) : (s.enterWait x).loaded = s.loaded := rfl
@[simp] theorem State.enterWait_cfg (x : Reg) : (s.enterWait x).cfg = s.cfg := rfl
@[simp] theorem State.enterWait_draws (x : Reg) : (s.enterWait x).draws = s.draws := rfl

/-! ## setFlag -/

@[simp] theorem State.setFlag_mem (f : Bool) : (s.setFlag f).mem = s.mem := rfl
@[simp] theorem State.setFlag_v (f : Bool) : (s.setFlag f).v = s.v.set VF.val (flagByte f) VF.isLt := rfl
@[simp] theorem State.setFlag_i (f : Bool) : (s.setFlag f).i = s.i := rfl
@[simp] theorem State.setFlag_pc (f : Bool) : (s.setFlag f).pc = s.pc := rfl
@[simp] theorem State.setFlag_stack (f : Bool) : (s.setFlag f).stack = s.stack := rfl
@[simp] theorem State.setFlag_sp (f : Bool) : (s.setFlag f).sp = s.sp := rfl
@[simp] theorem State.setFlag_dt (f : Bool) : (s.setFlag f).dt = s.dt := rfl
@[simp] theorem State.setFlag_st (f : Bool) : (s.setFlag f).st = s.st := rfl
@[simp] theorem State.setFlag_fb (f : Bool) : (s.setFlag f).fb = s.fb := rfl
@[simp] theorem State.setFlag_key (f : Bool) : (s.setFlag f).key = s.key := rfl
@[simp] theorem State.setFlag_run (f : Bool) : (s.setFlag f).run = s.run := rfl
@[simp] theorem State.setFlag_waitreg (f : Bool) : (s.setFlag f).waitreg = s.waitreg := rfl
@[simp] theorem State.setFlag_fault (f : Bool) : (s.setFlag f).fault = s.fault := rfl
@[simp] theorem State.setFlag_loaded (f : Bool) : (s.setFlag f).loaded = s.loaded := rfl
@[simp] theorem State.setFlag_cfg (f : Bool) : (s.setFlag f).cfg = s.cfg := rfl
@[simp] theorem State.setFlag_draws (f : Bool) : (s.setFlag f).draws = s.draws := rfl

/-! ## takeKey -/

@[simp] theorem State.takeKey_mem (x k : Reg) : (s.takeKey x k).mem = s.mem := rfl
@[simp] theorem State.takeKey_v (x k : Reg) : (s.takeKey x k).v = s.v.set x.val (BitVec.ofNat 8 k.val) x.isLt := rfl
@[simp] theorem State.takeKey_i (x k : Reg) : (s.takeKey x k).i = s.i := rfl
@[simp] theorem State.takeKey_pc (x k : Reg) : (s.takeKey x k).pc = s.pc + 2#12 := rfl
@[simp] theorem State.takeKey_stack (x k : Reg) : (s.takeKey x k).stack = s.stack := rfl
@[simp] theorem State.takeKey_sp (x k : Reg) : (s.takeKey x k).sp = s.sp := rfl
@[simp] theorem State.takeKey_dt (x k : Reg) : (s.takeKey x k).dt = s.dt := rfl
@[simp] theorem State.takeKey_st (x k : Reg) : (s.takeKey x k).st = s.st := rfl
@[simp] theorem State.takeKey_fb (x k : Reg) : (s.takeKey x k).fb = s.fb := rfl
@[simp] theorem State.takeKey_key (x k : Reg) : (s.takeKey x k).key = s.key := rfl
@[simp] theorem State.takeKey_run (x k : Reg) : (s.takeKey x k).run = s.run := rfl
@[simp] theorem State.takeKey_waitreg (x k : Reg) : (s.takeKey x k).waitreg = s.waitreg := rfl
@[simp] theorem State.takeKey_fault (x k : Reg) : (s.takeKey x k).fault = s.fault := rfl
@[simp] theorem State.takeKey_loaded (x k : Reg) : (s.takeKey x k).loaded = s.loaded := rfl
@[simp] theorem State.takeKey_cfg (x k : Reg) : (s.takeKey x k).cfg = s.cfg := rfl
@[simp] theorem State.takeKey_draws (x k : Reg) : (s.takeKey x k).draws = s.draws + 1 := rfl

/-! ## completeWait -/

@[simp] theorem State.completeWait_mem (k : Reg) : (s.completeWait k).mem = s.mem := rfl
@[simp] theorem State.completeWait_v (k : Reg) : (s.completeWait k).v = s.v.set s.waitreg.val (BitVec.ofNat 8 k.val) s.waitreg.isLt := rfl
@[simp] theorem State.completeWait_i (k : Reg) : (s.completeWait k).i = s.i := rfl
@[simp] theorem State.completeWait_pc (k : Reg) : (s.completeWait k).pc = s.pc + 2#12 := rfl
@[simp] theorem State.completeWait_stack (k : Reg) : (s.completeWait k).stack = s.stack := rfl
@[simp] theorem State.completeWait_sp (k : Reg) : (s.completeWait k).sp = s.sp := rfl
@[simp] theorem State.completeWait_dt (k : Reg) : (s.completeWait k).dt = s.dt := rfl
@[simp] theorem State.completeWait_st (k : Reg) : (s.completeWait k).st = s.st := rfl
@[simp] theorem State.completeWait_fb (k : Reg) : (s.completeWait k).fb = s.fb := rfl
@[simp] theorem State.completeWait_key (k : Reg) : (s.completeWait k).key = s.key := rfl
@[simp] theorem State.completeWait_run (k : Reg) : (s.completeWait k).run = .running := rfl
@[simp] theorem State.completeWait_waitreg (k : Reg) : (s.completeWait k).waitreg = s.waitreg := rfl
@[simp] theorem State.completeWait_fault (k : Reg) : (s.completeWait k).fault = s.fault := rfl
@[simp] theorem State.completeWait_loaded (k : Reg) : (s.completeWait k).loaded = s.loaded := rfl
@[simp] theorem State.completeWait_cfg (k : Reg) : (s.completeWait k).cfg = s.cfg := rfl
@[simp] theorem State.completeWait_draws (k : Reg) : (s.completeWait k).draws = s.draws + 1 := rfl

/-! ## setKey -/

@[simp] theorem State.setKey_mem (k : Reg) (p : Bool) : (s.setKey k p).mem = s.mem := rfl
@[simp] theorem State.setKey_v (k : Reg) (p : Bool) : (s.setKey k p).v = s.v := rfl
@[simp] theorem State.setKey_i (k : Reg) (p : Bool) : (s.setKey k p).i = s.i := rfl
@[simp] theorem State.setKey_pc (k : Reg) (p : Bool) : (s.setKey k p).pc = s.pc := rfl
@[simp] theorem State.setKey_stack (k : Reg) (p : Bool) : (s.setKey k p).stack = s.stack := rfl
@[simp] theorem State.setKey_sp (k : Reg) (p : Bool) : (s.setKey k p).sp = s.sp := rfl
@[simp] theorem State.setKey_dt (k : Reg) (p : Bool) : (s.setKey k p).dt = s.dt := rfl
@[simp] theorem State.setKey_st (k : Reg) (p : Bool) : (s.setKey k p).st = s.st := rfl
@[simp] theorem State.setKey_fb (k : Reg) (p : Bool) : (s.setKey k p).fb = s.fb := rfl
@[simp] theorem State.setKey_key (k : Reg) (p : Bool) : (s.setKey k p).key = s.key.set k.val p k.isLt := rfl
@[simp] theorem State.setKey_run (k : Reg) (p : Bool) : (s.setKey k p).run = s.run := rfl
@[simp] theorem State.setKey_waitreg (k : Reg) (p : Bool) : (s.setKey k p).waitreg = s.waitreg := rfl
@[simp] theorem State.setKey_fault (k : Reg) (p : Bool) : (s.setKey k p).fault = s.fault := rfl
@[simp] theorem State.setKey_loaded (k : Reg) (p : Bool) : (s.setKey k p).loaded = s.loaded := rfl
@[simp] theorem State.setKey_cfg (k : Reg) (p : Bool) : (s.setKey k p).cfg = s.cfg := rfl
@[simp] theorem State.setKey_draws (k : Reg) (p : Bool) : (s.setKey k p).draws = s.draws := rfl

/-! ## tick -/

@[simp] theorem State.tick_mem : (s.tick).mem = s.mem := rfl
@[simp] theorem State.tick_v : (s.tick).v = s.v := rfl
@[simp] theorem State.tick_i : (s.tick).i = s.i := rfl
@[simp] theorem State.tick_pc : (s.tick).pc = s.pc := rfl
@[simp] theorem State.tick_stack : (s.tick).stack = s.stack := rfl
@[simp] theorem State.tick_sp : (s.tick).sp = s.sp := rfl
@[simp] theorem State.tick_dt : (s.tick).dt = tickDown s.dt := rfl
@[simp] theorem State.tick_st : (s.tick).st = tickDown s.st := rfl
@[simp] theorem State.tick_fb : (s.tick).fb = s.fb := rfl
@[simp] theorem State.tick_key : (s.tick).key = s.key := rfl
@[simp] theorem State.tick_run : (s.tick).run = s.run := rfl
@[simp] theorem State.tick_waitreg : (s.tick).waitreg = s.waitreg := rfl
@[simp] theorem State.tick_fault : (s.tick).fault = s.fault := rfl
@[simp] theorem State.tick_loaded : (s.tick).loaded = s.loaded := rfl
@[simp] theorem State.tick_cfg : (s.tick).cfg = s.cfg := rfl
@[simp] theorem State.tick_draws : (s.tick).draws = s.draws := rfl

/-! ## writeFlagged: every field but v -/

@[simp] theorem State.writeFlagged_mem (x : Reg) (f : Bool) (g : State → Byte) : (s.writeFlagged x f g).mem = s.mem := by
  unfold State.writeFlagged; split <;> rfl
@[simp] theorem State.writeFlagged_i (x : Reg) (f : Bool) (g : State → Byte) : (s.writeFlagged x f g).i = s.i := by
  unfold State.writeFlagged; split <;> rfl
@[simp] theorem State.writeFlagged_pc (x : Reg) (f : Bool) (g : State → Byte) : (s.writeFlagged x f g).pc = s.pc := by
  unfold State.writeFlagged; split <;> rfl
@[simp] theorem State.writeFlagged_stack (x : Reg) (f : Bool) (g : State → Byte) : (s.writeFlagged x f g).stack = s.stack := by
  unfold State.writeFlagged; split <;> rfl
@[simp] theorem State.writeFlagged_sp (x : Reg) (f : Bool) (g : State → Byte) : (s.writeFlagged x f g).sp = s.sp := by
  unfold State.writeFlagged; split <;> rfl
@[simp] theorem State.writeFlagged_dt (x : Reg) (f : Bool) (g : State → Byte) : (s.writeFlagged x f g).dt = s.dt := by
  unfold State.writeFlagged; split <;> rfl
@[simp] theorem State.writeFlagged_st (x : Reg) (f : Bool) (g : State → Byte) : (s.writeFlagged x f g).st = s.st := by
  unfold State.writeFlagged; split <;> rfl
@[simp] theorem State.writeFlagged_fb (x : Reg) (f : Bool) (g : State → Byte) : (s.writeFlagged x f g).fb = s.fb := by
  unfold State.writeFlagged; split <;> rfl
@[simp] theorem State.writeFlagged_key (x : Reg) (f : Bool) (g : State → Byte) : (s.writeFlagged x f g).key = s.key := by
  unfold State.writeFlagged; split <;> rfl
@[simp] theorem State.writeFlagged_run (x : Reg) (f : Bool) (g : State → Byte) : (s.writeFlagged x f g).run = s.run := by
  unfold State.writeFlagged; split <;> rfl
@[simp] theorem State.writeFlagged_waitreg (x : Reg) (f : Bool) (g : State → Byte) : (s.writeFlagged x f g).waitreg = s.waitreg := by
  unfold State.writeFlagged; split <;> rfl
@[simp] theorem State.writeFlagged_fault (x : Reg) (f : Bool) (g : State → Byte) : (s.writeFlagged x f g).fault = s.fault := by
  unfold State.writeFlagged; split <;> rfl
@[simp] theorem State.writeFlagged_loaded (x : Reg) (f : Bool) (g : State → Byte) : (s.writeFlagged x f g).loaded = s.loaded := by
  unfold State.writeFlagged; split <;> rfl
@[simp] theorem State.writeFlagged_cfg (x : Reg) (f : Bool) (g : State → Byte) : (s.writeFlagged x f g).cfg = s.cfg := by
  unfold State.writeFlagged; split <;> rfl
@[simp] theorem State.writeFlagged_draws (x : Reg) (f : Bool) (g : State → Byte) : (s.writeFlagged x f g).draws = s.draws := by
  unfold State.writeFlagged; split <;> rfl

/-! ## setIndexFlag: every field but v -/

@[simp] theorem State.setIndexFlag_mem (f : Bool) : (s.setIndexFlag f).mem = s.mem := by
  unfold State.setIndexFlag; split <;> rfl
@[simp] theorem State.setIndexFlag_i (f : Bool) : (s.setIndexFlag f).i = s.i := by
  unfold State.setIndexFlag; split <;> rfl
@[simp] theorem State.setIndexFlag_pc (f : Bool) : (s.setIndexFlag f).pc = s.pc := by
  unfold State.setIndexFlag; split <;> rfl
@[simp] theorem State.setIndexFlag_stack (f : Bool) : (s.setIndexFlag f).stack = s.stack := by
  unfold State.setIndexFlag; split <;> rfl
@[simp] theorem State.setIndexFlag_sp (f : Bool) : (s.setIndexFlag f).sp = s.sp := by
  unfold State.setIndexFlag; split <;> rfl
@[simp] theorem State.setIndexFlag_dt (f : Bool) : (s.setIndexFlag f).dt = s.dt := by
  unfold State.setIndexFlag; split <;> rfl
@[simp] theorem State.setIndexFlag_st (f : Bool) : (s.setIndexFlag f).st = s.st := by
  unfold State.setIndexFlag; split <;> rfl
@[simp] theorem State.setIndexFlag_fb (f : Bool) : (s.setIndexFlag f).fb = s.fb := by
  unfold State.setIndexFlag; split <;> rfl
@[simp] theorem State.setIndexFlag_key (f : Bool) : (s.setIndexFlag f).key = s.key := by
  unfold State.setIndexFlag; split <;> rfl
@[simp] theorem State.setIndexFlag_run (f : Bool) : (s.setIndexFlag f).run = s.run := by
  unfold State.setIndexFlag; split <;> rfl
@[simp] theorem State.setIndexFlag_waitreg (f : Bool) : (s.setIndexFlag f).waitreg = s.waitreg := by
  unfold State.setIndexFlag; split <;> rfl
@[simp] theorem State.setIndexFlag_fault (f : Bool) : (s.setIndexFlag f).fault = s.fault := by
  unfold State.setIndexFlag; split <;> rfl
@[simp] theorem State.setIndexFlag_loaded (f : Bool) : (s.setIndexFlag f).loaded = s.loaded := by
  unfold State.setIndexFlag; split <;> rfl
@[simp] theorem State.setIndexFlag_cfg (f : Bool) : (s.setIndexFlag f).cfg = s.cfg := by
  unfold State.setIndexFlag; split <;> rfl
@[simp] theorem State.setIndexFlag_draws (f : Bool) : (s.setIndexFlag f).draws = s.draws := by
  unfold State.setIndexFlag; split <;> rfl

/-! ## postIncrement: every field but i -/

@[simp] theorem State.postIncrement_mem (n : Nat) : (s.postIncrement n).mem = s.mem := by
  unfold State.postIncrement; split <;> rfl
@[simp] theorem State.postIncrement_v (n : Nat) : (s.postIncrement n).v = s.v := by
  unfold State.postIncrement; split <;> rfl
@[simp] theorem State.postIncrement_pc (n : Nat) : (s.postIncrement n).pc = s.pc := by
  unfold State.postIncrement; split <;> rfl
@[simp] theorem State.postIncrement_stack (n : Nat) : (s.postIncrement n).stack = s.stack := by
  unfold State.postIncrement; split <;> rfl
@[simp] theorem State.postIncrement_sp (n : Nat) : (s.postIncrement n).sp = s.sp := by
  unfold State.postIncrement; split <;> rfl
@[simp] theorem State.postIncrement_dt (n : Nat) : (s.postIncrement n).dt = s.dt := by
  unfold State.postIncrement; split <;> rfl
@[simp] theorem State.postIncrement_st (n : Nat) : (s.postIncrement n).st = s.st := by
  unfold State.postIncrement; split <;> rfl
@[simp] theorem State.postIncrement_fb (n : Nat) : (s.postIncrement n).fb = s.fb := by
  unfold State.postIncrement; split <;> rfl
@[simp] theorem State.postIncrement_key (n : Nat) : (s.postIncrement n).key = s.key := by
  unfold State.postIncrement; split <;> rfl
@[simp] theorem State.postIncrement_run (n : Nat) : (s.postIncrement n).run = s.run := by
  unfold State.postIncrement; split <;> rfl
@[simp] theorem State.postIncrement_waitreg (n : Nat) : (s.postIncrement n).waitreg = s.waitreg := by
  unfold State.postIncrement; split <;> rfl
@[simp] theorem State.postIncrement_fault (n : Nat) : (s.postIncrement n).fault = s.fault := by
  unfold State.postIncrement; split <;> rfl
@[simp] theorem State.postIncrement_loaded (n : Nat) : (s.postIncrement n).loaded = s.loaded := by
  unfold State.postIncrement; split <;> rfl
@[simp] theorem State.postIncrement_cfg (n : Nat) : (s.postIncrement n).cfg = s.cfg := by
  unfold State.postIncrement; split <;> rfl
@[simp] theorem State.postIncrement_draws (n : Nat) : (s.postIncrement n).draws = s.draws := by
  unfold State.postIncrement; split <;> rfl

/-! ## storeRegs: every field but mem -/

@[simp] theorem State.storeRegs_v (n : Nat) : (s.storeRegs n).v = s.v := by
  induction n <;> simp [State.storeRegs, *]
@[simp] theorem State.storeRegs_i (n : Nat) : (s.storeRegs n).i = s.i := by
  induction n <;> simp [State.storeRegs, *]
@[simp] theorem State.storeRegs_pc (n : Nat) : (s.storeRegs n).pc = s.pc := by
  induction n <;> simp [State.storeRegs, *]
@[simp] theorem State.storeRegs_stack (n : Nat) : (s.storeRegs n).stack = s.stack := by
  induction n <;> simp [State.storeRegs, *]
@[simp] theorem State.storeRegs_sp (n : Nat) : (s.storeRegs n).sp = s.sp := by
  induction n <;> simp [State.storeRegs, *]
@[simp] theorem State.storeRegs_dt (n : Nat) : (s.storeRegs n).dt = s.dt := by
  induction n <;> simp [State.storeRegs, *]
@[simp] theorem State.storeRegs_st (n : Nat) : (s.storeRegs n).st = s.st := by
  induction n <;> simp [State.storeRegs, *]
@[simp] theorem State.storeRegs_fb (n : Nat) : (s.storeRegs n).fb = s.fb := by
  induction n <;> simp [State.storeRegs, *]
@[simp] theorem State.storeRegs_key (n : Nat) : (s.storeRegs n).key = s.key := by
  induction n <;> simp [State.storeRegs, *]
@[simp] theorem State.storeRegs_run (n : Nat) : (s.storeRegs n).run = s.run := by
  induction n <;> simp [State.storeRegs, *]
@[simp] theorem State.storeRegs_waitreg (n : Nat) : (s.storeRegs n).waitreg = s.waitreg := by
  induction n <;> simp [State.storeRegs, *]
@[simp] theorem State.storeRegs_fault (n : Nat) : (s.storeRegs n).fault = s.fault := by
  induction n <;> simp [State.storeRegs, *]
@[simp] theorem State.storeRegs_loaded (n : Nat) : (s.storeRegs n).loaded = s.loaded := by
  induction n <;> simp [State.storeRegs, *]
@[simp] theorem State.storeRegs_cfg (n : Nat) : (s.storeRegs n).cfg = s.cfg := by
  induction n <;> simp [State.storeRegs, *]
@[simp] theorem State.storeRegs_draws (n : Nat) : (s.storeRegs n).draws = s.draws := by
  induction n <;> simp [State.storeRegs, *]

/-! ## loadRegs: every field but v -/

@[simp] theorem State.loadRegs_mem (n : Nat) : (s.loadRegs n).mem = s.mem := by
  induction n <;> simp [State.loadRegs, *]
@[simp] theorem State.loadRegs_i (n : Nat) : (s.loadRegs n).i = s.i := by
  induction n <;> simp [State.loadRegs, *]
@[simp] theorem State.loadRegs_pc (n : Nat) : (s.loadRegs n).pc = s.pc := by
  induction n <;> simp [State.loadRegs, *]
@[simp] theorem State.loadRegs_stack (n : Nat) : (s.loadRegs n).stack = s.stack := by
  induction n <;> simp [State.loadRegs, *]
@[simp] theorem State.loadRegs_sp (n : Nat) : (s.loadRegs n).sp = s.sp := by
  induction n <;> simp [State.loadRegs, *]
@[simp] theorem State.loadRegs_dt (n : Nat) : (s.loadRegs n).dt = s.dt := by
  induction n <;> simp [State.loadRegs, *]
@[simp] theorem State.loadRegs_st (n : Nat) : (s.loadRegs n).st = s.st := by
  induction n <;> simp [State.loadRegs, *]
@[simp] theorem State.loadRegs_fb (n : Nat) : (s.loadRegs n).fb = s.fb := by
  induction n <;> simp [State.loadRegs, *]
@[simp] theorem State.loadRegs_key (n : Nat) : (s.loadRegs n).key = s.key := by
  induction n <;> simp [State.loadRegs, *]
@[simp] theorem State.loadRegs_run (n : Nat) : (s.loadRegs n).run = s.run := by
  induction n <;> simp [State.loadRegs, *]
@[simp] theorem State.loadRegs_waitreg (n : Nat) : (s.loadRegs n).waitreg = s.waitreg := by
  induction n <;> simp [State.loadRegs, *]
@[simp] theorem State.loadRegs_fault (n : Nat) : (s.loadRegs n).fault = s.fault := by
  induction n <;> simp [State.loadRegs, *]
@[simp] theorem State.loadRegs_loaded (n : Nat) : (s.loadRegs n).loaded = s.loaded := by
  induction n <;> simp [State.loadRegs, *]
@[simp] theorem State.loadRegs_cfg (n : Nat) : (s.loadRegs n).cfg = s.cfg := by
  induction n <;> simp [State.loadRegs, *]
@[simp] theorem State.loadRegs_draws (n : Nat) : (s.loadRegs n).draws = s.draws := by
  induction n <;> simp [State.loadRegs, *]

/-! ## writeBytes: every field but mem -/

@[simp] theorem State.writeBytes_v (a : Addr) (bs : List Byte) : (s.writeBytes a bs).v = s.v := by
  induction bs generalizing s a <;> simp [State.writeBytes, *]
@[simp] theorem State.writeBytes_i (a : Addr) (bs : List Byte) : (s.writeBytes a bs).i = s.i := by
  induction bs generalizing s a <;> simp [State.writeBytes, *]
@[simp] theorem State.writeBytes_pc (a : Addr) (bs : List Byte) : (s.writeBytes a bs).pc = s.pc := by
  induction bs generalizing s a <;> simp [State.writeBytes, *]
@[simp] theorem State.writeBytes_stack (a : Addr) (bs : List Byte) : (s.writeBytes a bs).stack = s.stack := by
  induction bs generalizing s a <;> simp [State.writeBytes, *]
@[simp] theorem State.writeBytes_sp (a : Addr) (bs : List Byte) : (s.writeBytes a bs).sp = s.sp := by
  induction bs generalizing s a <;> simp [State.writeBytes, *]
@[simp] theorem State.writeBytes_dt (a : Addr) (bs : List Byte) : (s.writeBytes a bs).dt = s.dt := by
  induction bs generalizing s a <;> simp [State.writeBytes, *]
@[simp] theorem State.writeBytes_st (a : Addr) (bs : List Byte) : (s.writeBytes a bs).st = s.st := by
  induction bs generalizing s a <;> simp [State.writeBytes, *]
@[simp] theorem State.writeBytes_fb (a : Addr) (bs : List Byte) : (s.writeBytes a bs).fb = s.fb := by
  induction bs generalizing s a <;> simp [State.writeBytes, *]
@[simp] theorem State.writeBytes_key (a : Addr) (bs : List Byte) : (s.writeBytes a bs).key = s.key := by
  induction bs generalizing s a <;> simp [State.writeBytes, *]
@[simp] theorem State.writeBytes_run (a : Addr) (bs : List Byte) : (s.writeBytes a bs).run = s.run := by
  induction bs generalizing s a <;> simp [State.writeBytes, *]
@[simp] theorem State.writeBytes_waitreg (a : Addr) (bs : List Byte) : (s.writeBytes a bs).waitreg = s.waitreg := by
  induction bs generalizing s a <;> simp [State.writeBytes, *]
@[simp] theorem State.writeBytes_fault (a : Addr) (bs : List Byte) : (s.writeBytes a bs).fault = s.fault := by
  induction bs generalizing s a <;> simp [State.writeBytes, *]
@[simp] theorem State.writeBytes_loaded (a : Addr) (bs : List Byte) : (s.writeBytes a bs).loaded = s.loaded := by
  induction bs generalizing s a <;> simp [State.writeBytes, *]
@[simp] theorem State.writeBytes_cfg (a : Addr) (bs : List Byte) : (s.writeBytes a bs).cfg = s.cfg := by
  induction bs generalizing s a <;> simp [State.writeBytes, *]
@[simp] theorem State.writeBytes_draws (a : Addr) (bs : List Byte) : (s.writeBytes a bs).draws = s.draws := by
  induction bs generalizing s a <;> simp [State.writeBytes, *]

/-! ## loadRom: every field -/

@[simp] theorem State.loadRom_mem (rom : List Byte) : (s.loadRom rom).mem = (s.writeBytes 0x200 rom).mem := rfl
@[simp] theorem State.loadRom_v (rom : List Byte) : (s.loadRom rom).v = s.v := State.writeBytes_v ..
@[simp] theorem State.loadRom_i (rom : List Byte) : (s.loadRom rom).i = s.i := State.writeBytes_i ..
@[simp] theorem State.loadRom_pc (rom : List Byte) : (s.loadRom rom).pc = s.pc := State.writeBytes_pc ..
@[simp] theorem State.loadRom_stack (rom : List Byte) : (s.loadRom rom).stack = s.stack := State.writeBytes_stack ..
@[simp] theorem State.loadRom_sp (rom : List Byte) : (s.loadRom rom).sp = s.sp := State.writeBytes_sp ..
@[simp] theorem State.loadRom_dt (rom : List Byte) : (s.loadRom rom).dt = s.dt := State.writeBytes_dt ..
@[simp] theorem State.loadRom_st (rom : List Byte) : (s.loadRom rom).st = s.st := State.writeBytes_st ..
@[simp] theorem State.loadRom_fb (rom : List Byte) : (s.loadRom rom).fb = s.fb := State.writeBytes_fb ..
@[simp] theorem State.loadRom_key (rom : List Byte) : (s.loadRom rom).key = s.key := State.writeBytes_key ..
@[simp] theorem State.loadRom_run (rom : List Byte) : (s.loadRom rom).run = s.run := State.writeBytes_run ..
@[simp] theorem State.loadRom_waitreg (rom : List Byte) : (s.loadRom rom).waitreg = s.waitreg := State.writeBytes_waitreg ..
@[simp] theorem State.loadRom_fault (rom : List Byte) : (s.loadRom rom).fault = s.fault := State.writeBytes_fault ..
@[simp] theorem State.loadRom_loaded (rom : List Byte) : (s.loadRom rom).loaded = true := rfl
@[simp] theorem State.loadRom_cfg (rom : List Byte) : (s.loadRom rom).cfg = s.cfg := State.writeBytes_cfg ..
@[simp] theorem State.loadRom_draws (rom : List Byte) : (s.loadRom rom).draws = s.draws := State.writeBytes_draws ..

end Sys2Proof.Machine
end

