-- ==== Sys2Proof/Laws/Memory.lean ====
section
/-! SUPPORT. Memory: a read after a write, the canonical form, and that equal reads are equal lists. -/

namespace Sys2Proof.Machine

variable {font : FontData}

/-! ## Lists by address -/

theorem Memory.lookup_insert (m : Memory) (a k : Nat) (b : Byte) :
    Memory.lookup (Memory.insert a b m) k = if a = k then some b else Memory.lookup m k := by
  induction m with
  | nil => simp [Memory.insert, Memory.lookup]
  | cons e m ih =>
    obtain ⟨j, c⟩ := e
    simp only [Memory.insert]
    split
    · simp [Memory.lookup]
    · split
      · subst a
        simp only [Memory.lookup]
        split <;> simp_all
      · simp only [Memory.lookup, ih]
        split <;> split <;> simp_all

/-- An address below the list's first is not listed. -/
theorem Memory.lookup_of_lt {m : Memory} {lo a : Nat} (h : Memory.wfFrom font lo m = true) (ha : a < lo) :
    Memory.lookup m a = none := by
  induction m generalizing lo with
  | nil => rfl
  | cons e m ih =>
    obtain ⟨j, c⟩ := e
    simp only [Memory.wfFrom, Bool.and_eq_true, decide_eq_true_eq] at h
    simp only [Memory.lookup]
    rw [if_neg (by omega)]
    exact ih h.2 (by omega)

theorem Memory.lookup_erase {m : Memory} {lo : Nat} (h : Memory.wfFrom font lo m = true) (a k : Nat) :
    Memory.lookup (Memory.erase a m) k = if a = k then none else Memory.lookup m k := by
  induction m generalizing lo with
  | nil => simp [Memory.erase, Memory.lookup]
  | cons e m ih =>
    obtain ⟨j, c⟩ := e
    simp only [Memory.wfFrom, Bool.and_eq_true, decide_eq_true_eq] at h
    simp only [Memory.erase]
    split
    · subst j
      split
      · subst k
        exact Memory.lookup_of_lt h.2 (by omega)
      · simp_all [Memory.lookup]
    · simp only [Memory.lookup, ih h.2]
      split <;> split <;> simp_all

/-! ## The canonical form is kept -/

theorem Memory.wfFrom_mono {m : Memory} {lo lo' : Nat} (h : Memory.wfFrom font lo m = true) (hl : lo' ≤ lo) :
    Memory.wfFrom font lo' m = true := by
  cases m with
  | nil => rfl
  | cons e m =>
    simp only [Memory.wfFrom, Bool.and_eq_true, decide_eq_true_eq] at h ⊢
    exact ⟨⟨⟨by omega, h.1.1.2⟩, h.1.2⟩, h.2⟩

theorem Memory.wfFrom_insert {m : Memory} {lo a : Nat} {b : Byte} (h : Memory.wfFrom font lo m = true)
    (hlo : lo ≤ a) (ha : a < 4096) (hb : b ≠ Memory.unlisted font a) :
    Memory.wfFrom font lo (Memory.insert a b m) = true := by
  induction m generalizing lo with
  | nil => simp [Memory.insert, Memory.wfFrom, hlo, ha, hb]
  | cons e m ih =>
    obtain ⟨j, c⟩ := e
    simp only [Memory.wfFrom, Bool.and_eq_true, decide_eq_true_eq] at h
    simp only [Memory.insert]
    split
    · simp only [Memory.wfFrom, Bool.and_eq_true, decide_eq_true_eq]
      exact ⟨⟨⟨hlo, ha⟩, hb⟩, ⟨⟨by omega, h.1.1.2⟩, h.1.2⟩, h.2⟩
    · split
      · subst a
        simp only [Memory.wfFrom, Bool.and_eq_true, decide_eq_true_eq]
        exact ⟨⟨⟨hlo, ha⟩, hb⟩, h.2⟩
      · simp only [Memory.wfFrom, Bool.and_eq_true, decide_eq_true_eq]
        exact ⟨⟨⟨h.1.1.1, h.1.1.2⟩, h.1.2⟩, ih h.2 (by omega)⟩

theorem Memory.wfFrom_erase {m : Memory} {lo : Nat} (a : Nat) (h : Memory.wfFrom font lo m = true) :
    Memory.wfFrom font lo (Memory.erase a m) = true := by
  induction m generalizing lo with
  | nil => rfl
  | cons e m ih =>
    obtain ⟨j, c⟩ := e
    simp only [Memory.wfFrom, Bool.and_eq_true, decide_eq_true_eq] at h
    simp only [Memory.erase]
    split
    · exact Memory.wfFrom_mono h.2 (by omega)
    · simp only [Memory.wfFrom, Bool.and_eq_true, decide_eq_true_eq]
      exact ⟨⟨⟨h.1.1.1, h.1.1.2⟩, h.1.2⟩, ih h.2⟩

/-- Every write keeps the canonical form. -/
theorem Memory.wf_write {m : Memory} (h : Memory.wf font m) (a : Addr) (b : Byte) :
    Memory.wf font (Memory.write font m a.toNat b) := by
  unfold Memory.write
  split
  · exact Memory.wfFrom_erase _ h
  · exact Memory.wfFrom_insert h (Nat.zero_le _) a.isLt ‹_›

/-! ## Reads and writes -/

/-- A read after a write: the byte written at that address, the byte before at any other. -/
theorem Memory.read_write {m : Memory} (h : Memory.wf font m) (a k : Nat) (b : Byte) :
    Memory.read font (Memory.write font m a b) k = if a = k then b else Memory.read font m k := by
  unfold Memory.read Memory.write
  split
  · rw [Memory.lookup_erase h]
    split <;> simp_all
  · rw [Memory.lookup_insert]
    split <;> simp

/-- Two canonical memories that read the same everywhere are the same list. -/
theorem Memory.eq_of_read_eq {m m' : Memory} {lo : Nat} (h : Memory.wfFrom font lo m = true)
    (h' : Memory.wfFrom font lo m' = true) (hr : ∀ a, Memory.read font m a = Memory.read font m' a) : m = m' := by
  have listed : ∀ {j lo : Nat} {c : Byte} {l l' : Memory},
      Memory.wfFrom font lo ((j, c) :: l) = true → Memory.lookup l' j = none →
      Memory.read font ((j, c) :: l) j ≠ Memory.read font l' j := by
    intro j lo c l l' hw hn
    simp only [Memory.wfFrom, Bool.and_eq_true, decide_eq_true_eq] at hw
    simpa [Memory.read, Memory.lookup, hn] using hw.1.2
  induction m generalizing m' lo with
  | nil =>
    cases m' with
    | nil => rfl
    | cons e l' => exact absurd (hr e.1).symm (listed h' rfl)
  | cons e l ih =>
    cases m' with
    | nil => exact absurd (hr e.1) (listed h rfl)
    | cons e' l' =>
      obtain ⟨j, c⟩ := e
      obtain ⟨j', c'⟩ := e'
      have hl := h
      have hl' := h'
      simp only [Memory.wfFrom, Bool.and_eq_true, decide_eq_true_eq] at hl hl'
      have hj : j = j' := by
        rcases Nat.lt_trichotomy j j' with hlt | heq | hgt
        · refine absurd (hr j) (listed h ?_)
          simp only [Memory.lookup]
          rw [if_neg (by omega)]
          exact Memory.lookup_of_lt hl'.2 (by omega)
        · exact heq
        · refine absurd (hr j').symm (listed h' ?_)
          simp only [Memory.lookup]
          rw [if_neg (by omega)]
          exact Memory.lookup_of_lt hl.2 (by omega)
      subst j'
      have hc : c = c' := by simpa [Memory.read, Memory.lookup] using hr j
      subst c'
      congr 1
      refine ih hl.2 hl'.2 fun a => ?_
      by_cases ha : j = a
      · subst a
        simp [Memory.read, Memory.lookup_of_lt hl.2 (Nat.lt_succ_self _), Memory.lookup_of_lt hl'.2 (Nat.lt_succ_self _)]
      · simpa [Memory.read, Memory.lookup, ha] using hr a

/-! ## Memory in the state -/

/-- A read after a write in a state whose memory is canonical. -/
theorem State.readByte_writeByte {s : State} (h : Memory.wf s.cfg.font s.mem) (a k : Addr) (b : Byte) :
    (s.writeByte a b).readByte k = if a = k then b else s.readByte k := by
  have := Memory.read_write h a.toNat k.toNat b
  simpa [State.readByte, BitVec.toNat_inj] using this

theorem State.wf_writeByte {s : State} (h : Memory.wf s.cfg.font s.mem) (a : Addr) (b : Byte) :
    Memory.wf (s.writeByte a b).cfg.font (s.writeByte a b).mem := Memory.wf_write h a b

/-- A state whose memory and font are another's reads the same bytes. -/
theorem State.readByte_congr {s t : State} (hm : t.mem = s.mem) (hc : t.cfg = s.cfg) (a : Addr) :
    t.readByte a = s.readByte a := by simp [State.readByte, hm, hc]

end Sys2Proof.Machine
end

