-- ==== Sys2Proof/Laws/Ops.lean ====
section
/-! SUPPORT. What each shared operation does, said once: registers, flags, memory transfers, the stack, key indices,
key waits. -/

namespace Sys2Proof.Machine

variable (s : State)

/-! ## Registers -/

/-- A register read after a register write. -/
theorem State.getV_setV (x r : Reg) (b : Byte) : (s.setV x b).getV r = if x = r then b else s.getV r := by
  simp [State.getV, Vector.getElem_set, Fin.ext_iff]

@[simp] theorem State.getV_setV_same (x : Reg) (b : Byte) : (s.setV x b).getV x = b := by simp [State.getV_setV]

theorem State.getV_congr {s t : State} (h : t.v = s.v) (r : Reg) : t.getV r = s.getV r := by simp [State.getV, h]

/-- The flag goes to VF and nowhere else. -/
theorem State.getV_setFlag (f : Bool) (r : Reg) :
    (s.setFlag f).getV r = if VF = r then flagByte f else s.getV r := State.getV_setV ..

/-- What `writeFlagged` leaves in the registers, under both write orders (41_alu.md R157). -/
theorem State.getV_writeFlagged (x r : Reg) (f : Bool) (g : State → Byte) :
    (s.writeFlagged x f g).getV r =
      match s.cfg.vfAliasMode with
      | .sequential => if x = r then g (s.setFlag f) else if VF = r then flagByte f else s.getV r
      | .flagLast => if VF = r then flagByte f else if x = r then g s else s.getV r := by
  unfold State.writeFlagged
  split <;> simp [State.getV_setV, State.getV_setFlag, *]

/-- What `setIndexFlag` leaves in the registers. -/
theorem State.getV_setIndexFlag (f : Bool) (r : Reg) :
    (s.setIndexFlag f).getV r =
      match s.cfg.fx1eVf with
      | .unchanged => s.getV r
      | .overflowFlag => if VF = r then flagByte f else s.getV r := by
  unfold State.setIndexFlag
  split <;> simp [State.getV_setFlag, *]

/-- What `postIncrement` leaves in I. -/
theorem State.postIncrement_i (n : Nat) :
    (s.postIncrement n).i =
      match s.cfg.loadStoreI with
      | .unchanged => s.i
      | .increment => s.i + BitVec.ofNat 12 n := by
  unfold State.postIncrement
  split <;> simp [*]

theorem State.postIncrement_getV (n : Nat) (r : Reg) : (s.postIncrement n).getV r = s.getV r :=
  State.getV_congr (by simp) r

theorem State.postIncrement_readByte (n : Nat) (a : Addr) : (s.postIncrement n).readByte a = s.readByte a :=
  State.readByte_congr (by simp) (by simp) a

/-! ## Addresses -/

/-- Offsets below 4096 from one base are different addresses. -/
theorem offset_inj (a : Addr) {j k : Nat} (hj : j < 4096) (hk : k < 4096)
    (h : a + BitVec.ofNat 12 j = a + BitVec.ofNat 12 k) : j = k := by
  have := congrArg BitVec.toNat h
  simp only [BitVec.toNat_add, BitVec.toNat_ofNat] at this
  have := a.isLt
  omega

/-- The offsets from the next address are the offsets of one more. -/
theorem next_offset (a : Addr) (k : Nat) : a + 1#12 + BitVec.ofNat 12 k = a + BitVec.ofNat 12 (k + 1) := by
  rw [BitVec.add_assoc, Nat.add_comm, BitVec.ofNat_add]

/-! ## Byte runs -/

theorem State.wf_writeBytes {s : State} (h : Memory.wf s.cfg.font s.mem) (a : Addr) (bs : List Byte) :
    Memory.wf (s.writeBytes a bs).cfg.font (s.writeBytes a bs).mem := by
  induction bs generalizing s a with
  | nil => exact h
  | cons b bs ih => exact ih (State.wf_writeByte h a b) _

/-- A byte outside a run of writes reads as before. -/
theorem State.readByte_writeBytes_outside {s : State} (h : Memory.wf s.cfg.font s.mem) (a b : Addr) (bs : List Byte)
    (hb : ∀ j < bs.length, b ≠ a + BitVec.ofNat 12 j) : (s.writeBytes a bs).readByte b = s.readByte b := by
  induction bs generalizing s a with
  | nil => rfl
  | cons c bs ih =>
    simp only [State.writeBytes]
    rw [ih (State.wf_writeByte h a c), State.readByte_writeByte h, if_neg]
    · simpa using (hb 0 (by simp)).symm
    · intro j hj
      have := hb (j + 1) (by simpa using hj)
      rwa [next_offset]

/-- The bytes of a run, up to 4096 of them, are where the run put them. -/
theorem State.readByte_writeBytes_inside {s : State} (h : Memory.wf s.cfg.font s.mem) (a : Addr) (bs : List Byte)
    (hl : bs.length ≤ 4096) (j : Nat) (hj : j < bs.length) :
    (s.writeBytes a bs).readByte (a + BitVec.ofNat 12 j) = bs[j] := by
  induction bs generalizing s a j with
  | nil => simp at hj
  | cons c bs ih =>
    simp only [State.writeBytes]
    simp only [List.length_cons] at hl hj
    cases j with
    | zero =>
      rw [State.readByte_writeBytes_outside (State.wf_writeByte h a c), State.readByte_writeByte h]
      · simp
      · intro k hk he
        rw [next_offset] at he
        have := offset_inj a (by omega) (by omega) he
        omega
    | succ k =>
      rw [← next_offset a k]
      exact ih (State.wf_writeByte h a c) (a + 1#12) (by omega) k (by omega)

/-! ## Register transfers (42_index_memory.md R184, R185) -/

theorem State.wf_storeRegs {s : State} (h : Memory.wf s.cfg.font s.mem) (n : Nat) :
    Memory.wf (s.storeRegs n).cfg.font (s.storeRegs n).mem := by
  induction n with
  | zero => exact h
  | succ n ih => exact State.wf_writeByte ih _ _

/-- A store of registers: the bytes outside read as before. -/
theorem State.readByte_storeRegs_outside {s : State} (h : Memory.wf s.cfg.font s.mem) (n : Nat) (b : Addr)
    (hb : ∀ j < n, b ≠ s.indirect j) : (s.storeRegs n).readByte b = s.readByte b := by
  induction n with
  | zero => rfl
  | succ n ih =>
    simp only [State.storeRegs]
    rw [State.readByte_writeByte (State.wf_storeRegs h n), if_neg, ih fun j hj => hb j (by omega)]
    simpa [State.indirect] using (hb n (by omega)).symm

/-- A store of up to 16 registers: register `j` is at I + j. -/
theorem State.readByte_storeRegs_inside {s : State} (h : Memory.wf s.cfg.font s.mem) (n : Nat) (hn : n ≤ 16)
    (j : Nat) (hj : j < n) : (s.storeRegs n).readByte (s.indirect j) = s.getV (Fin.ofNat 16 j) := by
  induction n with
  | zero => omega
  | succ n ih =>
    simp only [State.storeRegs]
    rw [State.readByte_writeByte (State.wf_storeRegs h n)]
    split
    · rename_i he
      have : n = j := offset_inj s.i (by omega) (by omega) (by simpa [State.indirect] using he)
      subst this
      exact State.getV_congr (by simp) _
    · rename_i he
      refine ih (by omega) ?_
      rcases Nat.lt_or_ge j n with h' | h'
      · exact h'
      · exact absurd (by simp [State.indirect, show j = n by omega]) he

theorem State.loadRegs_readByte (n : Nat) (a : Addr) : (s.loadRegs n).readByte a = s.readByte a :=
  State.readByte_congr (by simp) (by simp) a

/-- A load of up to 16 registers: those below `n` hold the bytes from I on, the others are as before. -/
theorem State.getV_loadRegs (n : Nat) (hn : n ≤ 16) (r : Reg) :
    (s.loadRegs n).getV r = if r.val < n then s.readByte (s.indirect r.val) else s.getV r := by
  induction n with
  | zero => rfl
  | succ n ih =>
    simp only [State.loadRegs, State.getV_setV, State.loadRegs_readByte, ih (by omega)]
    have hfin : Fin.ofNat 16 n = r ↔ n = r.val := by
      simp [Fin.ext_iff, Nat.mod_eq_of_lt (show n < 16 by omega)]
    have hi : (s.loadRegs n).indirect n = s.indirect n := by simp [State.indirect]
    rw [hi]
    by_cases h : n = r.val
    · simp [h]
    · rw [if_neg (mt hfin.mp h)]
      by_cases h' : r.val < n
      · simp [h', Nat.lt_succ_of_lt h']
      · rw [if_neg h', if_neg (by omega)]

/-! ## The call stack (10_state.md R38, R39) -/

/-- Everything a successful push does. -/
theorem State.push_ok {s t : State} {a : Addr} (h : s.push a = .ok t) :
    ∃ hs : s.sp.val < 16, t = { s with stack := s.stack.set s.sp.val a hs, sp := ⟨s.sp.val + 1, by omega⟩ } := by
  unfold State.push at h
  split at h
  · exact ⟨‹_›, by simpa using h.symm⟩
  · simp at h

/-- A push fails exactly on a full stack. -/
theorem State.push_error {s : State} {a : Addr} {c : FaultCause} :
    s.push a = .error c ↔ s.sp.val = 16 ∧ c = .stackOverflow := by
  unfold State.push
  split
  · simp; omega
  · simp [eq_comm]; omega

/-- Everything a successful pop does. -/
theorem State.pop_ok {s t : State} {a : Addr} (h : s.pop = .ok (t, a)) :
    ∃ hs : 0 < s.sp.val, t = { s with sp := ⟨s.sp.val - 1, by omega⟩ } ∧ a = s.stack[s.sp.val - 1]'(by omega) := by
  unfold State.pop at h
  split at h
  · simp only [Except.ok.injEq, Prod.mk.injEq] at h
    exact ⟨‹_›, h.1.symm, h.2.symm⟩
  · simp at h

/-- A pop fails exactly on an empty stack. -/
theorem State.pop_error {s : State} {c : FaultCause} :
    s.pop = .error c ↔ s.sp.val = 0 ∧ c = .stackUnderflow := by
  unfold State.pop
  split
  · simp; omega
  · simp [eq_comm]; omega

/-! ## Key indices and key waits (44_timers_keys.md R220, R226) -/

/-- The key index of a value below 16. -/
theorem keyidx_small (p : KeyIndexPolicy) {b : Byte} (h : b.toNat < 16) : keyidx p b = .ok (some ⟨b.toNat, h⟩) := by
  simp [keyidx, h]

/-- The key index of a value of 16 or more, by policy. -/
theorem keyidx_large (p : KeyIndexPolicy) {b : Byte} (h : 16 ≤ b.toNat) :
    keyidx p b =
      match p with
      | .fault => .error .keyIndexRange
      | .lowNibble => .ok (some (lowNibble b))
      | .notPressed => .ok none := by
  cases p <;> simp [keyidx, Nat.not_lt.mpr h]

/-- The only fault of a key index. -/
theorem keyidx_error {p : KeyIndexPolicy} {b : Byte} {c : FaultCause} (h : keyidx p b = .error c) :
    c = .keyIndexRange ∧ p = .fault ∧ 16 ≤ b.toNat := by
  unfold keyidx at h
  split at h
  · simp at h
  · split at h <;> simp_all

theorem State.mem_pressedKeys (k : Reg) : k ∈ s.pressedKeys ↔ s.keyDown k = true := by
  simp [State.pressedKeys]

theorem chooseKey_mem {draw : Nat} {ks : List Reg} {k : Reg} (h : chooseKey draw ks = some k) : k ∈ ks := by
  match ks with
  | [] => simp [chooseKey] at h
  | [_] => simpa [chooseKey, eq_comm] using h
  | a :: b :: ks =>
    simp only [chooseKey, Option.some.injEq] at h
    have hlt : draw % (ks.length + 2) < (a :: b :: ks).length := Nat.mod_lt draw (by omega)
    rw [List.getD_eq_getElem _ _ hlt] at h
    exact h ▸ List.getElem_mem hlt

/-- The key a wait takes is a pressed one. -/
theorem State.selectedKey_down {s : State} {k : Reg} (h : s.selectedKey = some k) : s.keyDown k = true :=
  (State.mem_pressedKeys s k).mp (chooseKey_mem h)

/-- A wait takes no key exactly when none is pressed. -/
theorem State.selectedKey_none : s.selectedKey = none ↔ ∀ k, s.keyDown k = false := by
  have hp : s.pressedKeys = [] ↔ ∀ k, s.keyDown k = false := by
    simp [State.pressedKeys, List.filter_eq_nil_iff]
  rw [← hp, State.selectedKey]
  match s.pressedKeys with
  | [] => simp [chooseKey]
  | [_] => simp [chooseKey]
  | _ :: _ :: _ => simp [chooseKey]

/-! ## The port (20_memory.md R80) -/

theorem State.serveAll_writesFrom (a : Addr) (bs : List Byte) :
    (s.serveAll (writesFrom a bs)).1 = s.writeBytes a bs := by
  induction bs generalizing s a with
  | nil => rfl
  | cons b bs ih => exact ih _ _

theorem State.serveAll_append (qs qs' : List Access) :
    (s.serveAll (qs ++ qs')).1 = ((s.serveAll qs).1.serveAll qs').1 := by
  induction qs generalizing s with
  | nil => rfl
  | cons q qs ih => exact ih _

end Sys2Proof.Machine
end

