-- ==== Sys2Proof/Laws/Display.lean ====
section
/-! SUPPORT. The sprite engine, said once: which cells a sprite covers, what XOR leaves in them, when it collides
(43_display.md R201, R202). -/

namespace Sys2Proof.Machine

/-! ## Cells -/

theorem Framebuffer.get_put (fb : Framebuffer) (c c' : Fin 64) (r r' : Fin 32) (b : Bool) :
    Framebuffer.get (Framebuffer.put fb c r b) c' r' = if c = c' ∧ r = r' then b else Framebuffer.get fb c' r' := by
  simp only [Framebuffer.get, Framebuffer.put, Fin.getElem_fin, Vector.getElem_set, Fin.ext_iff]
  by_cases hc : c.val = c'.val <;> by_cases hr : r.val = r'.val <;> simp [hc, hr]

@[simp] theorem Framebuffer.get_cleared (c : Fin 64) (r : Fin 32) : Framebuffer.get Framebuffer.cleared c r = false := by
  simp [Framebuffer.get, Framebuffer.cleared]

/-- Two framebuffers with the same cells are the same. -/
theorem Framebuffer.ext_get {f g : Framebuffer} (h : ∀ c r, Framebuffer.get f c r = Framebuffer.get g c r) : f = g := by
  apply Vector.ext
  intro c hc
  apply Vector.ext
  intro r hr
  exact h ⟨c, hc⟩ ⟨r, hr⟩

/-! ## A sprite as the list of the cells its 1 bits fall on -/

/-- One 1 bit drawn. -/
def toggle (acc : Framebuffer × Bool) (q : Fin 64 × Fin 32) : Framebuffer × Bool := drawBit q.1 q.2 true acc

/-- The cells of `n` columns of a row from column `c` on. -/
def rowCells (x0 y0 : Byte) (r : Nat) (row : Byte) (c n : Nat) : List (Fin 64 × Fin 32) :=
  ((List.range' c n).filter fun k => row.getLsbD (7 - k)).map fun k => (spriteCol x0 k, spriteRow y0 r)

/-- The cells of rows from row `r` on. -/
def spriteCells (x0 y0 : Byte) : Nat → List Byte → List (Fin 64 × Fin 32)
  | _, [] => []
  | r, row :: rows => rowCells x0 y0 r row 0 8 ++ spriteCells x0 y0 (r + 1) rows

theorem drawRow_eq_foldl (x0 y0 : Byte) (r : Nat) (row : Byte) (c n : Nat) (acc : Framebuffer × Bool) :
    drawRow x0 y0 r row c n acc = (rowCells x0 y0 r row c n).foldl toggle acc := by
  induction n generalizing c acc with
  | zero => rfl
  | succ n ih =>
    rw [drawRow, ih]
    simp only [rowCells, List.range'_succ]
    cases hb : row.getLsbD (7 - c) <;> simp [hb, drawBit, toggle]

theorem drawRows_eq_foldl (x0 y0 : Byte) (r : Nat) (rows : List Byte) (acc : Framebuffer × Bool) :
    drawRows x0 y0 r rows acc = (spriteCells x0 y0 r rows).foldl toggle acc := by
  induction rows generalizing r acc with
  | nil => rfl
  | cons row rows ih => simp [drawRows, spriteCells, ih, drawRow_eq_foldl]

theorem mem_rowCells {x0 y0 : Byte} {r : Nat} {row : Byte} {q : Fin 64 × Fin 32} :
    q ∈ rowCells x0 y0 r row 0 8 ↔
      ∃ k, k < 8 ∧ row.getLsbD (7 - k) = true ∧ q = (spriteCol x0 k, spriteRow y0 r) := by
  simp only [rowCells, List.mem_map, List.mem_filter, List.mem_range'_1]
  constructor
  · rintro ⟨k, ⟨⟨-, hk⟩, hb⟩, rfl⟩
    exact ⟨k, by omega, hb, rfl⟩
  · rintro ⟨k, hk, hb, rfl⟩
    exact ⟨k, ⟨⟨by omega, by omega⟩, hb⟩, rfl⟩

theorem mem_spriteCells {x0 y0 : Byte} {r : Nat} {rows : List Byte} {q : Fin 64 × Fin 32} :
    q ∈ spriteCells x0 y0 r rows ↔
      ∃ j k row, rows[j]? = some row ∧ k < 8 ∧ row.getLsbD (7 - k) = true ∧
        q = (spriteCol x0 k, spriteRow y0 (r + j)) := by
  induction rows generalizing r with
  | nil => simp [spriteCells]
  | cons row rows ih =>
    simp only [spriteCells, List.mem_append, mem_rowCells, ih]
    constructor
    · rintro (⟨k, hk, hb, rfl⟩ | ⟨j, k, row', hr, hk, hb, rfl⟩)
      · exact ⟨0, k, row, rfl, hk, hb, rfl⟩
      · exact ⟨j + 1, k, row', hr, hk, hb, by rw [Nat.add_assoc, Nat.add_comm 1 j]⟩
    · rintro ⟨j, k, row', hr, hk, hb, rfl⟩
      cases j with
      | zero =>
        obtain rfl : row = row' := by simpa using hr
        exact .inl ⟨k, hk, hb, rfl⟩
      | succ j => exact .inr ⟨j, k, row', by simpa using hr, hk, hb, by rw [Nat.add_assoc, Nat.add_comm 1 j]⟩

/-- No cell is the target of two bits of a sprite of at most 32 rows (R202). -/
theorem spriteCells_nodup (x0 y0 : Byte) (r : Nat) (rows : List Byte) (h : rows.length ≤ 32) :
    (spriteCells x0 y0 r rows).Nodup := by
  induction rows generalizing r with
  | nil => exact List.nodup_nil
  | cons row rows ih =>
    simp only [List.length_cons] at h
    refine List.nodup_append.mpr ⟨?_, ih (r + 1) (by omega), ?_⟩
    · refine List.Nodup.map_on ?_ ((List.nodup_range').filter _)
      intro a ha b hb he
      simp only [List.mem_filter, List.mem_range'_1] at ha hb
      have hc : (x0.toNat + a) % 64 = (x0.toNat + b) % 64 := congrArg (fun q : Fin 64 × Fin 32 => q.1.val) he
      omega
    · intro p hp q hq
      obtain ⟨k, -, -, rfl⟩ := mem_rowCells.mp hp
      obtain ⟨j, k', row', hr, -, -, rfl⟩ := mem_spriteCells.mp hq
      intro he
      have hj : j < rows.length := by
        rcases Nat.lt_or_ge j rows.length with h' | h'
        · exact h'
        · simp [List.getElem?_eq_none h'] at hr
      have hrow : (y0.toNat + r) % 32 = (y0.toNat + (r + 1 + j)) % 32 :=
        congrArg (fun q : Fin 64 × Fin 32 => q.2.val) he
      omega

/-! ## Toggling different cells -/

theorem get_foldl_toggle (cells : List (Fin 64 × Fin 32)) (hn : cells.Nodup) (acc : Framebuffer × Bool) (c : Fin 64)
    (r : Fin 32) :
    Framebuffer.get (cells.foldl toggle acc).1 c r = (Framebuffer.get acc.1 c r ^^ decide ((c, r) ∈ cells)) := by
  induction cells generalizing acc with
  | nil => simp
  | cons q cells ih =>
    obtain ⟨qc, qr⟩ := q
    obtain ⟨hq, hn'⟩ := List.nodup_cons.mp hn
    rw [List.foldl_cons, ih hn']
    simp only [toggle, drawBit, if_true, Framebuffer.get_put]
    by_cases he : qc = c ∧ qr = r
    · obtain ⟨rfl, rfl⟩ := he
      simp [hq]
    · have : (c, r) ≠ (qc, qr) := fun h => he ⟨(congrArg Prod.fst h).symm, (congrArg Prod.snd h).symm⟩
      simp [he, this]

theorem collided_foldl_toggle (cells : List (Fin 64 × Fin 32)) (hn : cells.Nodup) (acc : Framebuffer × Bool) :
    (cells.foldl toggle acc).2 = (acc.2 || cells.any fun q => Framebuffer.get acc.1 q.1 q.2) := by
  induction cells generalizing acc with
  | nil => simp
  | cons q cells ih =>
    obtain ⟨hq, hn⟩ := List.nodup_cons.mp hn
    rw [List.foldl_cons, ih hn]
    have hany : (cells.any fun p => Framebuffer.get (toggle acc q).1 p.1 p.2) =
        cells.any fun p => Framebuffer.get acc.1 p.1 p.2 := by
      rw [Bool.eq_iff_iff]
      simp only [List.any_eq_true]
      refine exists_congr fun p => and_congr_right fun hp => ?_
      have hne : ¬ (q.1 = p.1 ∧ q.2 = p.2) := by
        rintro ⟨h1, h2⟩
        exact hq (by rwa [Prod.ext h1 h2])
      simp [toggle, drawBit, Framebuffer.get_put, hne]
    rw [hany]
    simp [toggle, drawBit, Bool.or_assoc]

/-! ## The two laws of `drawSprite` -/

theorem mem_spriteCells_iff_covers (x0 y0 : Byte) (rows : List Byte) (c : Fin 64) (r : Fin 32) :
    (c, r) ∈ spriteCells x0 y0 0 rows ↔ SpriteCovers x0 y0 rows c r := by
  simp [mem_spriteCells, SpriteCovers, spriteCol, spriteRow, Prod.ext_iff, Fin.ext_iff]

/-- Every cell after a draw: the bit before, turned over where the sprite covers it. -/
theorem get_drawSprite (fb : Framebuffer) (x0 y0 : Byte) (rows : List Byte) (h : rows.length ≤ 32) (c : Fin 64)
    (r : Fin 32) :
    Framebuffer.get (drawSprite fb x0 y0 rows).1 c r = true ↔
      ¬ (Framebuffer.get fb c r = true ↔ SpriteCovers x0 y0 rows c r) := by
  rw [drawSprite, drawRows_eq_foldl, get_foldl_toggle _ (spriteCells_nodup x0 y0 0 rows h),
    ← mem_spriteCells_iff_covers]
  cases Framebuffer.get fb c r <;> by_cases hm : (c, r) ∈ spriteCells x0 y0 0 rows <;> simp [hm]

/-- The collision flag: some covered cell held 1. -/
theorem collided_drawSprite (fb : Framebuffer) (x0 y0 : Byte) (rows : List Byte) (h : rows.length ≤ 32) :
    (drawSprite fb x0 y0 rows).2 = true ↔ ∃ c r, SpriteCovers x0 y0 rows c r ∧ Framebuffer.get fb c r = true := by
  rw [drawSprite, drawRows_eq_foldl, collided_foldl_toggle _ (spriteCells_nodup x0 y0 0 rows h)]
  simp only [Bool.false_or, List.any_eq_true, Prod.exists, mem_spriteCells_iff_covers]

end Sys2Proof.Machine
end

