-- ==== Sys2Proof/Laws/Frames.lean ====
section
/-! SUPPORT. Frames from equal fields: what two states share, said once for each of the predicates of Safety.lean. -/

namespace Sys2Proof.Machine

variable {s t : State}

theorem SameMem.of_eq (hm : t.mem = s.mem) (hc : t.cfg = s.cfg) : SameMem s t := State.readByte_congr hm hc

theorem SameScreen.of_eq (h : t.fb = s.fb) : SameScreen s t := fun _ _ => by rw [h]

theorem SameRegsBut.of_eq (h : t.v = s.v) (xs : List Reg) : SameRegsBut xs s t := fun r _ => State.getV_congr h r

/-- A register write changes no register but its own. -/
theorem SameRegsBut.of_setV {x : Reg} {b : Byte} (h : t.v = (s.setV x b).v) : SameRegsBut [x] s t := by
  intro r hr
  rw [State.getV_congr h, State.getV_setV, if_neg]
  simpa [eq_comm] using hr

/-- A flagged result changes no register but its own and VF. -/
theorem SameRegsBut.of_writeFlagged {x : Reg} {f : Bool} {g : State → Byte} (h : t.v = (s.writeFlagged x f g).v) :
    SameRegsBut [x, VF] s t := by
  intro r hr
  simp only [List.mem_cons, List.not_mem_nil, or_false, not_or] at hr
  rw [State.getV_congr h, State.getV_writeFlagged]
  split <;> simp [Ne.symm hr.1, Ne.symm hr.2]

/-- All of the state but the registers, I and PC is shared where every such field is. -/
theorem SameButRegs.of_eq (mem : t.mem = s.mem) (sp : t.sp = s.sp) (stack : t.stack = s.stack) (dt : t.dt = s.dt)
    (st : t.st = s.st) (fb : t.fb = s.fb) (run : t.run = s.run) (waitreg : t.waitreg = s.waitreg)
    (fault : t.fault = s.fault) (loaded : t.loaded = s.loaded) (key : t.key = s.key) (cfg : t.cfg = s.cfg)
    (draws : t.draws = s.draws) : SameButRegs s t :=
  ⟨.of_eq mem cfg, ⟨sp, stack⟩, ⟨dt, st⟩, .of_eq fb, ⟨run, waitreg, fault, loaded⟩, ⟨key, cfg⟩, draws⟩

theorem SameButPc.of_setPc (s : State) (a : Addr) : SameButPc s (s.setPc a) :=
  ⟨.of_eq rfl _, rfl, .of_eq rfl rfl rfl rfl rfl rfl rfl rfl rfl rfl rfl rfl rfl⟩

theorem SameButPc.of_advance (s : State) : SameButPc s s.advance := .of_setPc s _

theorem SameButPc.of_skipIf (s : State) (c : Bool) : SameButPc s (s.skipIf c) := .of_setPc s _

/-- The default advance in numbers (40_control_flow.md R140). -/
theorem Advanced.of_pc (h : t.pc = s.pc + 2#12) : Advanced s t := by
  rw [Advanced, h, BitVec.toNat_add]; rfl

/-- A skip in numbers (40_control_flow.md R140). -/
theorem Skipped.of_pc (h : t.pc = s.pc + 4#12) : Skipped s t := by
  rw [Skipped, h, BitVec.toNat_add]; rfl

/-- Raising a fault is taking it, and nothing else (60_exceptions.md R242, R243). -/
theorem TookFault.of_raiseFault (s : State) (c : FaultCause) : TookFault c s (s.raiseFault c) :=
  ⟨rfl, rfl, rfl, rfl, .of_eq rfl _, rfl, rfl, .of_eq rfl rfl, ⟨rfl, rfl⟩, ⟨rfl, rfl⟩, .of_eq rfl, ⟨rfl, rfl⟩, rfl⟩

/-! ## The result of a step -/

/-- An instruction that leaves RUN as it was returns Executed. -/
theorem Returns.executed {i : Instr} (h : t.run = s.run) : Returns .executed i s t := by
  intro hr hd
  simp [stepResult, hr, hd, h]

/-- An instruction that faults returns the cause. -/
theorem Returns.faulted {i : Instr} {c : FaultCause} (h : TookFault c s t) : Returns (.faulted c) i s t := by
  intro hr hd
  simp [stepResult, hr, hd, h.1, h.2.1]

/-- Fx0A that starts to wait returns Waiting. -/
theorem Returns.waiting {i : Instr} (h : t.run = .waitingForKey) : Returns .waiting i s t := by
  intro hr hd
  simp [stepResult, hr, hd, h]

end Sys2Proof.Machine
end

