-- ==== Sys2Proof/Laws/PerInstr.lean ====
section
/-! SUPPORT. Facts about every instruction as syntax, one lemma per constructor: the family `TableRow`, that the word of
an instruction matches its row of the opcode table (30_encoding.md R92). -/

namespace Sys2Proof.Laws.TableRow

/-- The instruction's word agrees with its row on every bit the row fixes. -/
def Statement (i : Instr) : Prop := encode i &&& i.tableMask = i.tableMatch

theorem formA_and_mask (op : BitVec 4) (nnn : Addr) : formA op nnn &&& 0xF000 = op ++ 0#12 := by
  apply BitVec.eq_of_getLsbD_eq
  intro i hi
  simp only [formA, BitVec.getLsbD_and, BitVec.getLsbD_append]
  interval_cases i <;> simp

theorem formXK_and_op (op : BitVec 4) (x : Reg) (kk : Byte) : formXK op x kk &&& 0xF000 = op ++ 0#12 := by
  apply BitVec.eq_of_getLsbD_eq
  intro i hi
  simp only [formXK, BitVec.getLsbD_and, BitVec.getLsbD_append]
  interval_cases i <;> simp

theorem formXK_and_opKk (op : BitVec 4) (x : Reg) (kk : Byte) : formXK op x kk &&& 0xF0FF = op ++ 0#4 ++ kk := by
  apply BitVec.eq_of_getLsbD_eq
  intro i hi
  simp only [formXK, BitVec.getLsbD_and, BitVec.getLsbD_append]
  interval_cases i <;> simp

theorem formXYN_and_op (op : BitVec 4) (x y : Reg) (n : BitVec 4) : formXYN op x y n &&& 0xF000 = op ++ 0#12 := by
  apply BitVec.eq_of_getLsbD_eq
  intro i hi
  simp only [formXYN, BitVec.getLsbD_and, BitVec.getLsbD_append]
  interval_cases i <;> simp

theorem formXYN_and_opN (op : BitVec 4) (x y : Reg) (n : BitVec 4) :
    formXYN op x y n &&& 0xF00F = op ++ 0#8 ++ n := by
  apply BitVec.eq_of_getLsbD_eq
  intro i hi
  simp only [formXYN, BitVec.getLsbD_and, BitVec.getLsbD_append]
  interval_cases i <;> simp

theorem cls : Statement .cls := rfl
theorem ret : Statement .ret := rfl
theorem sys (nnn : Addr) : Statement (.sys nnn) := formA_and_mask _ _
theorem jp (nnn : Addr) : Statement (.jp nnn) := formA_and_mask _ _
theorem call (nnn : Addr) : Statement (.call nnn) := formA_and_mask _ _
theorem se (x : Reg) (kk : Byte) : Statement (.se x kk) := formXK_and_op _ _ _
theorem sne (x : Reg) (kk : Byte) : Statement (.sne x kk) := formXK_and_op _ _ _
theorem seReg (x y : Reg) : Statement (.seReg x y) := formXYN_and_opN _ _ _ _
theorem ld (x : Reg) (kk : Byte) : Statement (.ld x kk) := formXK_and_op _ _ _
theorem add (x : Reg) (kk : Byte) : Statement (.add x kk) := formXK_and_op _ _ _
theorem ldReg (x y : Reg) : Statement (.ldReg x y) := formXYN_and_opN _ _ _ _
theorem orReg (x y : Reg) : Statement (.orReg x y) := formXYN_and_opN _ _ _ _
theorem andReg (x y : Reg) : Statement (.andReg x y) := formXYN_and_opN _ _ _ _
theorem xorReg (x y : Reg) : Statement (.xorReg x y) := formXYN_and_opN _ _ _ _
theorem addReg (x y : Reg) : Statement (.addReg x y) := formXYN_and_opN _ _ _ _
theorem sub (x y : Reg) : Statement (.sub x y) := formXYN_and_opN _ _ _ _
theorem shr (x y : Reg) : Statement (.shr x y) := formXYN_and_opN _ _ _ _
theorem subn (x y : Reg) : Statement (.subn x y) := formXYN_and_opN _ _ _ _
theorem shl (x y : Reg) : Statement (.shl x y) := formXYN_and_opN _ _ _ _
theorem sneReg (x y : Reg) : Statement (.sneReg x y) := formXYN_and_opN _ _ _ _
theorem ldI (nnn : Addr) : Statement (.ldI nnn) := formA_and_mask _ _
theorem jpV0 (nnn : Addr) : Statement (.jpV0 nnn) := formA_and_mask _ _
theorem rnd (x : Reg) (kk : Byte) : Statement (.rnd x kk) := formXK_and_op _ _ _
theorem drw (x y : Reg) (n : BitVec 4) : Statement (.drw x y n) := formXYN_and_op _ _ _ _
theorem skp (x : Reg) : Statement (.skp x) := formXK_and_opKk _ _ _
theorem sknp (x : Reg) : Statement (.sknp x) := formXK_and_opKk _ _ _
theorem ldVxDt (x : Reg) : Statement (.ldVxDt x) := formXK_and_opKk _ _ _
theorem ldVxK (x : Reg) : Statement (.ldVxK x) := formXK_and_opKk _ _ _
theorem ldDtVx (x : Reg) : Statement (.ldDtVx x) := formXK_and_opKk _ _ _
theorem ldStVx (x : Reg) : Statement (.ldStVx x) := formXK_and_opKk _ _ _
theorem addIVx (x : Reg) : Statement (.addIVx x) := formXK_and_opKk _ _ _
theorem ldFVx (x : Reg) : Statement (.ldFVx x) := formXK_and_opKk _ _ _
theorem ldBVx (x : Reg) : Statement (.ldBVx x) := formXK_and_opKk _ _ _
theorem ldMemVx (x : Reg) : Statement (.ldMemVx x) := formXK_and_opKk _ _ _
theorem ldVxMem (x : Reg) : Statement (.ldVxMem x) := formXK_and_opKk _ _ _

end Sys2Proof.Laws.TableRow
end

