-- ==== Sys2Proof/Laws/Step.lean ====
section
/-! SUPPORT. What an instruction, a step and a run of transactions can do, said once. -/

namespace Sys2Proof.Machine

variable {s t : State}

/-! ## Instructions -/

/-- What an instruction can do to RUN and FAULT: leave both, start a key wait, or take a fault; in the two latter cases
that is all it does. -/
theorem exec_run {i : Instr} (h : exec i s = .next t) :
    (t.run = s.run ∧ t.fault = s.fault) ∨ (∃ x, i = .ldVxK x ∧ t = s.enterWait x ∧ s.selectedKey = none) ∨
    ∃ c, t = s.raiseFault c := by
  cases i <;> simp only [exec] at h
  case ret =>
    unfold execRet at h
    split at h <;> cases h
    · rename_i hp
      obtain ⟨-, rfl, -⟩ := State.pop_ok hp
      exact .inl ⟨rfl, rfl⟩
    · exact .inr (.inr ⟨_, rfl⟩)
  case call nnn =>
    unfold execCall at h
    split at h <;> cases h
    · rename_i hp
      obtain ⟨-, rfl⟩ := State.push_ok hp
      exact .inl ⟨rfl, rfl⟩
    · exact .inr (.inr ⟨_, rfl⟩)
  case skp x =>
    unfold execSkp at h
    split at h <;> cases h
    · exact .inl ⟨rfl, rfl⟩
    · exact .inr (.inr ⟨_, rfl⟩)
  case sknp x =>
    unfold execSknp at h
    split at h <;> cases h
    · exact .inl ⟨rfl, rfl⟩
    · exact .inr (.inr ⟨_, rfl⟩)
  case ldVxK x =>
    unfold execLdVxK at h
    split at h <;> cases h
    · exact .inl ⟨rfl, rfl⟩
    · exact .inr (.inl ⟨x, rfl, rfl, ‹_›⟩)
  all_goals
    cases h
    exact .inl ⟨by simp, by simp⟩

/-- No instruction writes KEY, LOADED or the settings. -/
theorem exec_inputs {i : Instr} (h : exec i s = .next t) : t.key = s.key ∧ t.loaded = s.loaded ∧ t.cfg = s.cfg := by
  cases i <;> simp only [exec] at h
  case ret =>
    unfold execRet at h
    split at h <;> cases h
    · rename_i hp
      obtain ⟨-, rfl, -⟩ := State.pop_ok hp
      exact ⟨rfl, rfl, rfl⟩
    · exact ⟨rfl, rfl, rfl⟩
  case call nnn =>
    unfold execCall at h
    split at h <;> cases h
    · rename_i hp
      obtain ⟨-, rfl⟩ := State.push_ok hp
      exact ⟨rfl, rfl, rfl⟩
    · exact ⟨rfl, rfl, rfl⟩
  case skp x => unfold execSkp at h; split at h <;> cases h <;> exact ⟨rfl, rfl, rfl⟩
  case sknp x => unfold execSknp at h; split at h <;> cases h <;> exact ⟨rfl, rfl, rfl⟩
  case ldVxK x => unfold execLdVxK at h; split at h <;> cases h <;> exact ⟨rfl, rfl, rfl⟩
  all_goals
    cases h
    exact ⟨by simp, by simp, by simp⟩

/-- Every instruction keeps memory canonical. -/
theorem exec_wf {i : Instr} (hw : Memory.wf s.cfg.font s.mem) (h : exec i s = .next t) :
    Memory.wf t.cfg.font t.mem := by
  cases i <;> simp only [exec] at h
  case ldBVx x =>
    cases h
    simpa using State.wf_writeBytes hw s.i (bcdDigits (s.getV x))
  case ldMemVx x =>
    cases h
    simpa using State.wf_storeRegs hw (x.val + 1)
  case ret =>
    unfold execRet at h
    split at h <;> cases h
    · rename_i hp
      obtain ⟨-, rfl, -⟩ := State.pop_ok hp
      exact hw
    · exact hw
  case call nnn =>
    unfold execCall at h
    split at h <;> cases h
    · rename_i hp
      obtain ⟨-, rfl⟩ := State.push_ok hp
      exact hw
    · exact hw
  case skp x => unfold execSkp at h; split at h <;> cases h <;> exact hw
  case sknp x => unfold execSknp at h; split at h <;> cases h <;> exact hw
  case ldVxK x => unfold execLdVxK at h; split at h <;> cases h <;> exact hw
  all_goals
    cases h
    simpa using hw

/-! ## The step -/

/-- Everything a step that answers a next state can be. -/
theorem step_next (h : step s = .next t) :
    s.loaded = true ∧
    ((s.run = .halted ∧ t = s) ∨ (s.run = .waitingForKey ∧ t = s.keywaitPoll) ∨
      (s.run = .running ∧
        ((∃ i, decode s.fetchWord = .ok i ∧ exec i s = .next t) ∨
          ∃ e, decode s.fetchWord = .error e ∧ t = s.decodeFailure))) := by
  unfold step at h
  split at h
  · refine ⟨‹_›, ?_⟩
    split at h
    · exact .inl ⟨‹_›, by simpa using h.symm⟩
    · exact .inr (.inl ⟨‹_›, by simpa using h.symm⟩)
    · refine .inr (.inr ⟨‹_›, ?_⟩)
      split at h
      · exact .inl ⟨_, ‹_›, h⟩
      · exact .inr ⟨_, ‹_›, by simpa using h.symm⟩
  · simp at h

/-- Everything a poll can do: take a pressed key, or nothing when there is none. -/
theorem State.keywaitPoll_cases (s : State) :
    (∃ k, s.selectedKey = some k ∧ s.keywaitPoll = s.completeWait k) ∨
    (s.selectedKey = none ∧ s.keywaitPoll = s) := by
  unfold State.keywaitPoll
  split
  · exact .inl ⟨_, ‹_›, rfl⟩
  · exact .inr ⟨‹_›, rfl⟩

/-! ## Runs -/

/-- A run of one transaction more: the transaction, then the rest. -/
theorem runTransactions_cons {x : Transaction} {xs : List Transaction} {rs : List Response}
    (h : runTransactions (x :: xs) s = .next (t, rs)) :
    ∃ u r rs', transact x s = .next (u, r) ∧ runTransactions xs u = .next (t, rs') ∧ rs = r :: rs' := by
  simp only [runTransactions] at h
  split at h
  · split at h <;> simp only [Host.Outcome.next.injEq, Prod.mk.injEq, reduceCtorEq] at h
    obtain ⟨rfl, rfl⟩ := h
    exact ⟨_, _, _, ‹_›, ‹_›, rfl⟩
  · simp at h
  · simp at h

/-! ## The port -/

/-- Reads at the port leave the state. -/
theorem State.serveAll_reads (s : State) (f : Nat → Addr) (l : List Nat) :
    (s.serveAll (l.map fun r => .read (f r))).1 = s := by
  induction l with
  | nil => rfl
  | cons a l ih => exact ih

/-- The port's writes of a store of registers leave what the store leaves. -/
theorem State.serveAll_storeRegs (s : State) (n : Nat) :
    (s.serveAll ((List.range n).map fun j => Access.write (s.indirect j) (s.getV (Fin.ofNat 16 j)))).1 =
      s.storeRegs n := by
  induction n with
  | zero => rfl
  | succ n ih =>
    rw [List.range_succ, List.map_append, State.serveAll_append, ih]
    simp only [List.map_cons, List.map_nil, State.serveAll, State.serve, State.storeRegs]
    rw [show (s.storeRegs n).indirect n = s.indirect n by simp [State.indirect],
      State.getV_congr (show (s.storeRegs n).v = s.v by simp)]

end Sys2Proof.Machine
end

