-- ==== Sys2Proof/Tests/Slice0.lean ====
section
/-! SUPPORT. Tests, with values from 95_test_vectors.md (its row is named), and for each statement of
Certificates/Slice0/Obligations.lean with hypotheses a state and operands that meet them. -/

namespace Sys2Proof.Tests

open Sys2Proof.Machine

/-! ## Small states -/

/-- A loaded machine right after reset. -/
def start : State := { State.reset with loaded := true }

/-- The same with registers. -/
def regs (vs : List (Reg × Byte)) : State := vs.foldl (fun s p => s.setV p.1 p.2) start

/-- The same with keys pressed. -/
def keysDown (s : State) (ks : List Reg) : State := ks.foldl (fun s k => s.setKey k true) s

/-- A machine that waits for a key for V5. -/
def waiting : State := start.enterWait 5

/-- A Halted machine. -/
def halted : State := start.raiseFault .stackOverflow

/-- With another setting. -/
def withCfg (s : State) (f : Config → Config) : State := { s with cfg := f s.cfg }

/-- What one instruction leaves, looked at by `f`. -/
def after {α : Type} (s : State) (w : Nat) (f : State → α) : Option α :=
  match step (s.withFetchWord 16 w) with
  | .next t => some (f t)
  | _ => none

/-- The result of one instruction. -/
def result (s : State) (w : Nat) : Option StepResult := after s w (stepResult (s.withFetchWord 16 w))

/-- What one transaction leaves and returns, looked at by `f`. -/
def did {α : Type} (x : Transaction) (s : State) (f : State → Response → α) : Option α :=
  match transact x s with
  | .next (t, r) => some (f t r)
  | _ => none

theorem next_of_after {α : Type} {s : State} {w : Nat} {f : State → α} {a : α} (h : after s w f = some a) :
    ∃ t, step (s.withFetchWord 16 w) = .next t ∧ f t = a := by
  unfold after at h
  split at h
  · exact ⟨_, ‹_›, by simpa using h⟩
  · simp at h

theorem next_of_did {α : Type} {s : State} {x : Transaction} {f : State → Response → α} {a : α}
    (h : did x s f = some a) : ∃ t r, transact x s = .next (t, r) ∧ f t r = a := by
  unfold did at h
  split at h
  · exact ⟨_, _, ‹_›, by simpa using h⟩
  · simp at h

/-! ## Well-formed terms (30_encoding.md R96) -/

theorem test_wellFormed_refuses_sys_0E0 : (Instr.sys 0x0E0).wellFormed = false := by decide
theorem test_wellFormed_refuses_sys_0EE : (Instr.sys 0x0EE).wellFormed = false := by decide
theorem test_wellFormed_accepts_sys_0E1 : (Instr.sys 0x0E1).wellFormed = true := by decide

/-! ## Decoding: one word a row, bit by bit from 30_encoding.md R95 -/

theorem test_decode_family_0 :
    decode 0b0000000011100000 = .ok .cls ∧ decode 0b0000000011101110 = .ok .ret ∧
    decode 0b0000000011101111 = .ok (.sys 0x0EF) := by decide

theorem test_decode_control :
    decode 0b0001111111111111 = .ok (.jp 0xFFF) ∧ decode 0b0010101010111100 = .ok (.call 0xABC) ∧
    decode 0b0011101001000010 = .ok (.se 10 0x42) ∧ decode 0b0100101001000010 = .ok (.sne 10 0x42) ∧
    decode 0b0101101010110000 = .ok (.seReg 10 11) ∧ decode 0b1001101010110000 = .ok (.sneReg 10 11) ∧
    decode 0b1011001100000000 = .ok (.jpV0 0x300) := by decide

theorem test_decode_loads_and_arithmetic :
    decode 0b0110101001111111 = .ok (.ld 10 0x7F) ∧ decode 0b0111001100100000 = .ok (.add 3 0x20) ∧
    decode 0b1000101010110000 = .ok (.ldReg 10 11) ∧ decode 0b1000101010110001 = .ok (.orReg 10 11) ∧
    decode 0b1000101010110010 = .ok (.andReg 10 11) ∧ decode 0b1000101010110011 = .ok (.xorReg 10 11) ∧
    decode 0b1000101010110100 = .ok (.addReg 10 11) ∧ decode 0b1000101010110101 = .ok (.sub 10 11) ∧
    decode 0b1000101010110110 = .ok (.shr 10 11) ∧ decode 0b1000101010110111 = .ok (.subn 10 11) ∧
    decode 0b1000101010111110 = .ok (.shl 10 11) ∧ decode 0b1100101000001111 = .ok (.rnd 10 0x0F) := by decide

theorem test_decode_index_and_display :
    decode 0b1010000100100011 = .ok (.ldI 0x123) ∧ decode 0b1111001000011110 = .ok (.addIVx 2) ∧
    decode 0b1111101000101001 = .ok (.ldFVx 10) ∧ decode 0b1111010000110011 = .ok (.ldBVx 4) ∧
    decode 0b1111001101010101 = .ok (.ldMemVx 3) ∧ decode 0b1111001001100101 = .ok (.ldVxMem 2) ∧
    decode 0b1101000000010101 = .ok (.drw 0 1 5) := by decide

theorem test_decode_keys_and_timers :
    decode 0b1110001110011110 = .ok (.skp 3) ∧ decode 0b1110001110100001 = .ok (.sknp 3) ∧
    decode 0b1111000000000111 = .ok (.ldVxDt 0) ∧ decode 0b1111000100001010 = .ok (.ldVxK 1) ∧
    decode 0b1111000100010101 = .ok (.ldDtVx 1) ∧ decode 0b1111000100011000 = .ok (.ldStVx 1) := by decide

/-- The words of V-DEC that are no instruction. -/
theorem test_decode_rejects :
    ([0x5121, 0x9AB1, 0x8AB8, 0x8AB9, 0x8ABA, 0x8ABB, 0x8ABC, 0x8ABD, 0x8ABF, 0xE09F, 0xE0A2, 0xE000, 0xF000, 0xF01F,
      0xF0FF, 0xF066].map fun w : Nat => (decodeTableWord 16 w).isNone).all id = true := by decide

/-- How many words are no instruction in each family (R97 and V-DEC: 17488 in all). The families share no word. -/
theorem test_decode_counts_the_rejected_words :
    4096 * 15 / 16 + 4096 * 7 / 16 + 4096 * 15 / 16 + 16 * (256 - 2) + 16 * (256 - 9) = 17488 := by decide

/-! ## Control flow (V-CF) -/

theorem test_ret_CF1 :
    after { start with sp := 2, stack := start.stack.set 1 0x456 } 0x00EE (fun t => (t.pc, t.sp)) =
      some (0x456, 1) := by decide
theorem test_ret_CF2 :
    after start 0x00EE (fun t => (t.pc, t.sp, t.run, t.fault)) = some (0x200, 0, .halted, some .stackUnderflow) ∧
    result start 0x00EE = some (.faulted .stackUnderflow) := by decide
theorem test_sys_CF4 : after start 0x0FFF (·.pc) = some 0x202 := by decide
theorem test_jp_CF6 : after start 0x1201 (·.pc) = some 0x201 := by decide
theorem test_call_CF8 :
    after { start with pc := 0xFFE } 0x2300 (fun t => (t.stack[0], t.sp, t.pc)) = some (0x000, 1, 0x300) := by
  decide
theorem test_call_CF9 :
    after { start with sp := 16 } 0x2300 (fun t => (t.pc, t.sp, t.run, t.fault)) =
      some (0x200, 16, .halted, some .stackOverflow) := by decide
theorem test_se_CF10_CF11 :
    after (regs [(10, 0x42)]) 0x3A42 (·.pc) = some 0x204 ∧ after (regs [(10, 0x43)]) 0x3A42 (·.pc) = some 0x202 := by
  decide
theorem test_se_CF19 : after { start with pc := 0xFFE } 0x3000 (·.pc) = some 0x002 := by decide
theorem test_sne_CF12_CF13 :
    after (regs [(10, 0x42)]) 0x4A42 (·.pc) = some 0x202 ∧ after (regs [(10, 0x43)]) 0x4A42 (·.pc) = some 0x204 := by
  decide
theorem test_seReg_CF14_CF15 :
    after (regs [(10, 7), (11, 7)]) 0x5AB0 (·.pc) = some 0x204 ∧
    after (regs [(10, 7), (11, 8)]) 0x5AB0 (·.pc) = some 0x202 := by decide
theorem test_sneReg_CF17_CF18 :
    after (regs [(10, 7), (11, 8)]) 0x9AB0 (·.pc) = some 0x204 ∧
    after (regs [(10, 7), (11, 7)]) 0x9AB0 (·.pc) = some 0x202 := by decide
theorem test_jpV0_CF22 : after (regs [(0, 0xFF)]) 0xBFFF (·.pc) = some 0x0FE := by decide

/-! ## Loads and arithmetic (V-ALU, V-ALIAS) -/

/-- V[a], V[b] and VF. -/
def three (a b : Reg) (t : State) : Byte × Byte × Byte := (t.getV a, t.getV b, t.getV VF)

theorem test_ld_A1 : after start 0x6A7F (three 10 11) = some (0x7F, 0, 0) := by decide
theorem test_add_A2 : after (regs [(10, 1), (15, 0x55)]) 0x7AFF (three 10 11) = some (0, 0, 0x55) := by decide
theorem test_ldReg_A4 : after (regs [(11, 0x12)]) 0x8AB0 (three 10 11) = some (0x12, 0x12, 0) := by decide
theorem test_or_A5 :
    after (regs [(10, 0xF0), (11, 0x0F), (15, 0x55)]) 0x8AB1 (three 10 11) = some (0xFF, 0x0F, 0x55) := by
  decide
theorem test_and_A6 :
    after (regs [(10, 0xF0), (11, 0x3C), (15, 0x55)]) 0x8AB2 (three 10 11) = some (0x30, 0x3C, 0x55) := by
  decide
theorem test_xor_A7 :
    after (regs [(10, 0xFF), (11, 0x0F), (15, 0x55)]) 0x8AB3 (three 10 11) = some (0xF0, 0x0F, 0x55) := by
  decide
theorem test_addReg_A9_A10 :
    after (regs [(10, 0xFF), (11, 1)]) 0x8AB4 (three 10 11) = some (0, 1, 1) ∧
    after (regs [(10, 0x80), (11, 0x7F)]) 0x8AB4 (three 10 11) = some (0xFF, 0x7F, 0) := by decide
/-- Under `flag_last`. -/
def flagLast (s : State) : State := withCfg s fun c => { c with vfAliasMode := .flagLast }

theorem test_addReg_L1_L3 :
    after (regs [(15, 0xFF), (1, 1)]) 0x8F14 (·.getV VF) = some 0 ∧
    after (flagLast (regs [(15, 0xFF), (1, 1)])) 0x8F14 (·.getV VF) = some 1 ∧
    after (regs [(1, 0x10), (15, 0xF0)]) 0x81F4 (three 1 1) = some (0, 0, 1) := by decide
theorem test_sub_A13_A14 :
    after (regs [(10, 5), (11, 5)]) 0x8AB5 (three 10 11) = some (0, 5, 0) ∧
    after (regs [(10, 0), (11, 1)]) 0x8AB5 (three 10 11) = some (0xFF, 1, 0) := by decide
theorem test_sub_L6_L7 :
    after (regs [(15, 1), (1, 0x10)]) 0x8F15 (·.getV VF) = some 0xF0 ∧
    after (regs [(1, 0x10), (15, 5)]) 0x81F5 (three 1 1) = some (0x0F, 0x0F, 1) ∧
    after (flagLast (regs [(1, 0x10), (15, 5)])) 0x81F5 (three 1 1) = some (0x0B, 0x0B, 1) := by decide
theorem test_shr_A17 : after (regs [(10, 1), (11, 0x99)]) 0x8AB6 (three 10 11) = some (0, 0x99, 1) := by
  decide
theorem test_shr_L9 :
    after (regs [(15, 3)]) 0x8F06 (·.getV VF) = some 0 ∧
    after (flagLast (regs [(15, 3)])) 0x8F06 (·.getV VF) = some 1 := by decide
theorem test_subn_A20_A22 :
    after (regs [(10, 1), (11, 0x10)]) 0x8AB7 (three 10 11) = some (0x0F, 0x10, 1) ∧
    after (regs [(10, 1), (11, 0)]) 0x8AB7 (three 10 11) = some (0xFF, 0, 0) := by decide
theorem test_subn_L12 :
    after (regs [(1, 1), (15, 0x10)]) 0x81F7 (three 1 1) = some (0, 0, 1) ∧
    after (flagLast (regs [(1, 1), (15, 0x10)])) 0x81F7 (three 1 1) = some (0x0F, 0x0F, 1) := by decide
theorem test_shl_A25 : after (regs [(10, 0x81)]) 0x8A0E (three 10 11) = some (2, 0, 1) := by decide
theorem test_shl_L14 :
    after (regs [(15, 0x81)]) 0x8F0E (·.getV VF) = some 2 ∧
    after (flagLast (regs [(15, 0x81)])) 0x8F0E (·.getV VF) = some 1 := by decide
/-- A27: whatever the draw, the mask 0 leaves 0. -/
theorem test_rnd_A27 : ∃ t, exec (.rnd 10 0) start = .next t ∧ t.getV 10 = 0 ∧ t.pc = 0x202 :=
  ⟨_, rfl, (State.getV_setV_same ..).trans BitVec.and_zero, rfl⟩

/-! ## Index register and memory (V-IDX) -/

theorem test_ldI_X1 : after start 0xA123 (·.i) = some 0x123 := by decide
theorem test_addIVx_X3 :
    after { regs [(10, 1), (15, 0x55)] with i := 0xFFF } 0xFA1E (fun t => (t.i, t.getV VF)) = some (0, 0x55) := by
  decide
/-- Under `overflow_flag`. -/
def overflowFlag (s : State) : State := withCfg s fun c => { c with fx1eVf := .overflowFlag }

theorem test_addIVx_X4_X5 :
    after (overflowFlag { regs [(10, 0xFF)] with i := 0xF00 }) 0xFA1E (fun t => (t.i, t.getV VF)) = some (0xFFF, 0) ∧
    after (overflowFlag { regs [(15, 2)] with i := 0xFFF }) 0xFF1E (fun t => (t.i, t.getV VF)) = some (1, 1) := by
  decide
theorem test_ldFVx_X8 : after (regs [(10, 0xFF)]) 0xFA29 (·.i) = some 0x4FB := by decide
/-- Memory at an address and the two after it. -/
def bytesAt (a : Addr) (t : State) : Byte × Byte × Byte := (t.readByte a, t.readByte (a + 1), t.readByte (a + 2))

theorem test_ldBVx_X10 :
    after { regs [(10, 255)] with i := 0x300 } 0xFA33 (bytesAt 0x300) = some (2, 5, 5) := by decide
theorem test_ldBVx_X13 :
    after { regs [(10, 123)] with i := 0xFFF } 0xFA33 (bytesAt 0xFFF) = some (1, 2, 3) := by decide
/-- Under `increment`. -/
def increment (s : State) : State := withCfg s fun c => { c with loadStoreI := .increment }

theorem test_ldMemVx_X14 :
    after { regs [(0, 1), (1, 2), (2, 3), (3, 4)] with i := 0x300 } 0xF355
      (fun t => (bytesAt 0x300 t, bytesAt 0x302 t, t.i)) = some ((1, 2, 3), (3, 4, 0), 0x300) := by decide
theorem test_ldMemVx_X15 :
    after (increment { regs [(0, 0x77)] with i := 0xFFF }) 0xF055 (fun t => (bytesAt 0xFFF t, t.i)) =
      some ((0x77, 0xF0, 0x90), 0) := by decide
theorem test_ldVxMem_X20 :
    after ((({ start with i := 0xFFE } : State).writeByte 0xFFE 1).writeByte 0xFFF 2) 0xF265
      (fun t => (t.getV 0, t.getV 1, t.getV 2, t.getV 3, t.i)) = some (1, 2, 0xF0, 0, 0xFFE) := by decide

/-! ## Display (V-DRW) -/

/-- The set cells of some. -/
def lit (cs : List (Fin 64 × Fin 32)) (t : State) : List Bool := cs.map fun q => Framebuffer.get t.fb q.1 q.2

theorem test_cls_D1 :
    after { regs [(15, 7)] with fb := Framebuffer.put start.fb 63 31 true } 0x00E0
      (fun t => (lit [(63, 31)] t, t.getV VF, t.pc)) = some ([false], 7, 0x202) := by decide
/-- D4: a sprite wraps at both edges. -/
theorem test_drw_D4 :
    after (regs [(0, 62), (1, 30)]) 0xD015
      (fun t => (lit [(62, 30), (1, 30), (2, 30), (62, 31), (63, 31), (1, 0), (0, 2), (1, 2)] t, t.getV VF)) =
      some ([true, true, false, true, false, true, true, true], 0) := by decide
/-- D7: XOR and collision. -/
theorem test_drw_D7 :
    after { (start.writeByte 0x300 0xC0) with i := 0x300, fb := Framebuffer.put start.fb 0 0 true } 0xD011
      (fun t => (lit [(0, 0), (1, 0), (2, 0)] t, t.getV VF)) = some ([false, true, false], 1) := by decide

/-! ## Keys and timers (V-KEY) -/

theorem test_skp_K1_K2 :
    after (keysDown (regs [(3, 3)]) [3]) 0xE39E (·.pc) = some 0x204 ∧
    after (regs [(3, 3)]) 0xE39E (·.pc) = some 0x202 := by decide
/-- With another key-index policy. -/
def policy (p : KeyIndexPolicy) (s : State) : State := withCfg s fun c => { c with keyIndexPolicy := p }

theorem test_skp_K5_K6_K7 :
    result (keysDown (regs [(3, 0x13)]) [3]) 0xE39E = some (.faulted .keyIndexRange) ∧
    after (policy .lowNibble (keysDown (regs [(3, 0x13)]) [3])) 0xE39E (·.pc) = some 0x204 ∧
    after (policy .notPressed (keysDown (regs [(3, 0x13)]) [3])) 0xE39E (·.pc) = some 0x202 := by decide
theorem test_sknp_K3_K4 :
    after (regs [(3, 3)]) 0xE3A1 (·.pc) = some 0x204 ∧
    after (keysDown (regs [(3, 3)]) [3]) 0xE3A1 (·.pc) = some 0x202 := by decide
theorem test_sknp_K8 : after (policy .notPressed (regs [(3, 0x13)])) 0xE3A1 (·.pc) = some 0x204 := by decide
theorem test_ldVxDt_K9 : after { start with dt := 0x3C } 0xF007 (·.getV 0) = some 0x3C := by decide
theorem test_ldVxK_K11 :
    after (keysDown start [12]) 0xF10A (fun t => (t.getV 1, t.pc, t.run)) = some (12, 0x202, .running) := by
  decide
theorem test_ldVxK_K12 :
    after start 0xF10A (fun t => (t.run, t.waitreg, t.pc)) = some (.waitingForKey, 1, 0x200) ∧
    result start 0xF10A = some .waiting := by decide
/-- K10: with two keys pressed, one of the two, whatever the draw. -/
theorem test_selectedKey_K10 :
    (keysDown start [5, 9]).selectedKey = some 5 ∨ (keysDown start [5, 9]).selectedKey = some 9 := by
  have hp : (keysDown start [5, 9]).pressedKeys = [5, 9] := by decide
  simp only [State.selectedKey, hp, chooseKey, List.length_nil, Nat.zero_add]
  rcases Nat.mod_two_eq_zero_or_one (Config.keySelect (keysDown start [5, 9]).draws) with h | h <;> simp [h]
theorem test_keywait_W7 :
    did .step (keysDown waiting [3]) (fun t r => (t.getV 5, t.pc, t.run, r)) =
      some (3, 0x202, .running, .step .executed) ∧
    did .step waiting (fun t r => (t.pc, t.run, r)) = some (0x200, .waitingForKey, .step .waiting) := by decide
theorem test_ldDtVx_K15 : after { start with dt := 9 } 0xF115 (·.dt) = some 0 := by decide
theorem test_ldStVx_K16 : after (regs [(1, 1)]) 0xF118 (fun t => (t.st, t.toneActive)) = some (1, true) := by
  decide
theorem test_tick_K17_K19 :
    did .tickTimers { start with dt := 255, st := 1 } (fun t _ => (t.dt, t.st, t.toneActive)) =
      some (254, 0, false) := by decide

/-! ## Machine states, reset, load (V-MACH) -/

theorem test_step_S1 :
    did .step halted (fun t r => (t.run, t.pc, r)) = some (.halted, 0x200, .step (.halted (some .stackOverflow))) := by
  decide
theorem test_reset_S3 :
    did .reset halted (fun t _ => (t.pc, t.run, t.fault, t.loaded, t.readByte 0x000)) =
      some (0x200, .running, none, false, 0xF0) := by decide
theorem test_load_S5_S6 :
    did (.load (List.replicate 3585 0)) State.reset (fun t r => (t.loaded, r)) = some (false, .load .romTooLarge) ∧
    did (.load [0x12, 0x00]) State.reset (fun t r => (t.fetchWord, t.loaded, r)) =
      some (0x1200, true, .load .ok) := by decide +kernel
theorem test_refused_S8_S9_S10 :
    step State.reset = .refused .stepBeforeLoad ∧ transact (.load []) start = .refused .loadAfterLoad ∧
    transact (.setKey 16 true) State.reset = .refused .keyOutsideRange := ⟨rfl, rfl, rfl⟩
/-- V-DEC: a decode failure at 0xFFE wraps. -/
theorem test_decodeFailure_wraps :
    after { start with pc := 0xFFE } 0x5121 (·.pc) = some 0 ∧
    result { start with pc := 0xFFE } 0x5121 = some (.decodeFailure 0x5121) := by decide
/-- W6: the word at 0xFFF takes its low byte from 0x000. -/
theorem test_fetch_W6 :
    ({ start.writeByte 0xFFF 0x60 with pc := 0xFFF } : State).fetchWord = 0x60F0 := by decide

/-! ## Assembly text (Part 3; 30_encoding.md R106 to R108) -/

/-- Program 6. -/
theorem test_assemble_program_6 :
    assemble "LD V3, K ; wait\nSKP V3\nreleased: JP released\nheld:\nJP held".toList =
      some [(0x200, 0xF3), (0x201, 0x0A), (0x202, 0xE3), (0x203, 0x9E), (0x204, 0x12), (0x205, 0x04), (0x206, 0x12),
        (0x207, 0x06)] := by decide
theorem test_disassemble :
    disassemble 0x5121 = "DW 0x5121".toList ∧ disassemble 0x8014 = "ADD V0, V1".toList ∧
    disassemble 0xF265 = "LD V2, [I]".toList ∧ disassemble 0x0000 = "SYS 0x000".toList := by decide
/-- R107: directives; log 16: a label before an ORG, and a byte above 0xFFF. -/
theorem test_assemble_directives :
    assemble "DB 1, 0x2A\nORG 0x300\nDW 0x1234 ; word".toList =
      some [(0x200, 1), (0x201, 0x2A), (0x300, 0x12), (0x301, 0x34)] ∧
    assemble "a: ORG 0x300\nJP a".toList = some [(0x300, 0x12), (0x301, 0x00)] ∧
    assemble "ORG 0xFFF\nDB 1, 2".toList = some [(0xFFF, 1), (0x1000, 2)] := by decide
/-- Log 16: labels that differ in case are two. -/
theorem test_assemble_label_case :
    assemble "a: DB 1\nA: JP A".toList = some [(0x200, 1), (0x201, 0x12), (0x202, 0x01)] ∧
    assemble "a: JP A".toList = none := by decide
/-- Log 16: a label above 0xFFF may stand, and a reference to it gives no assembly. -/
theorem test_assemble_label_above :
    assemble "ORG 0xFFF\nDB 1\na:".toList = some [(0xFFF, 1)] ∧
    assemble "JP a\nORG 0xFFF\nDB 1\na:".toList = none := by decide
/-- R106 and R107: the address of an ORG is 0 to 0xFFF or a label, defined before or after it; log 16: not through
itself. -/
theorem test_assemble_org :
    assemble "a: DB 1\nORG 0x300\nDB 2\nORG a\nDB 3".toList = some [(0x200, 1), (0x300, 2), (0x200, 3)] ∧
    assemble "ORG b\nDB 1\nORG 0x300\nb: DB 2".toList = some [(0x300, 1), (0x300, 2)] ∧
    assemble "ORG 0x1000".toList = none ∧ assemble "ORG V1".toList = none ∧ assemble "ORG b\nb: DB 1".toList = none := by
  decide

/-! ## Witnesses: for each statement with hypotheses, states and operands that meet them, clause by clause -/

/-- `start` with the word of an instruction where it fetches. -/
def at_ (w : Nat) : State := start.withFetchWord 16 w

theorem witness_DecodeInvertsEncode :
    Instr.WellFormed (.drw 15 15 15) ∧ Instr.WellFormed (.sys 0x000) ∧ Instr.WellFormed (.sys 0xFFF) ∧
    Instr.WellFormed (.ldVxMem 15) := by decide
theorem witness_EncodeInvertsDecode :
    decode 0x0000 = .ok (.sys 0) ∧ decode 0xFF65 = .ok (.ldVxMem 15) := by decide
/-- The first and the last word of each space. -/
theorem witness_DecodeRejectsExactlyTheFiveSpaces :
    decode 0x5001 = .error .family5 ∧ decode 0x5FFF = .error .family5 ∧ decode 0x8008 = .error .family8 ∧
    decode 0x8FFF = .error .family8 ∧ decode 0x9001 = .error .family9 ∧ decode 0x9FFF = .error .family9 ∧
    decode 0xE000 = .error .familyE ∧ decode 0xEFFF = .error .familyE ∧ decode 0xF000 = .error .familyF ∧
    decode 0xFFFF = .error .familyF := by decide
theorem witness_DecodedWordMatchesItsTableRow : decode 0x8FFE = .ok (.shl 15 15) := by decide
theorem witness_AssemblerBuildsEveryInstruction :
    Instr.WellFormed (.shr 1 0) ∧ Instr.WellFormed (.shr 1 2) := by decide
theorem witness_AssembledTextIsTheWord :
    decode 0xF0FF = .error .familyF ∧ (0x000#12) ≠ 0x0E0#12 ∧ (0x000#12) ≠ 0x0EE#12 ∧ (0xFFF#12) ≠ 0x0E0#12 ∧
    (0xFFF#12) ≠ 0x0EE#12 := by decide
theorem witness_StepRunsTheDecodedInstruction :
    (at_ 0xD015).loaded = true ∧ (at_ 0xD015).run = .running ∧ Instr.WellFormed (.drw 0 1 5) ∧
    decode (wordOfBytes ((at_ 0xD015).readByte (at_ 0xD015).pc) ((at_ 0xD015).readByte ((at_ 0xD015).pc + 1#12))) =
      .ok (.drw 0 1 5) := by decide
theorem witness_StepRunsEncodedBytes :
    (at_ 0x7320).loaded = true ∧ (at_ 0x7320).run = .running ∧ Instr.WellFormed (.add 3 0x20) ∧
    ((at_ 0x7320).readByte (at_ 0x7320).pc).toNat = (encode (.add 3 0x20)).toNat / 256 ∧
    ((at_ 0x7320).readByte ((at_ 0x7320).pc + 1#12)).toNat = (encode (.add 3 0x20)).toNat % 256 := by decide
theorem witness_FetchIsBigEndianAndWraps : ({ start with pc := 0xFFF } : State).pc = 0xFFF := rfl
theorem witness_DecodeFailureIsSkipped :
    (at_ 0xF0FF).loaded = true ∧ (at_ 0xF0FF).run = .running ∧
    decode (at_ 0xF0FF).fetchWord = .error .familyF := by decide
theorem witness_HaltedStepDoesNothing : halted.loaded = true ∧ halted.run = .halted := ⟨rfl, rfl⟩
theorem witness_LoadedStepAlwaysAnswers : start.loaded = true ∧ State.reset.loaded = false := ⟨rfl, rfl⟩
theorem witness_KeyWaitPoll :
    waiting.loaded = true ∧ waiting.run = .waitingForKey ∧ (∀ k, waiting.keyDown k = false) ∧
    (keysDown waiting [0]).keyDown 0 = true ∧ (keysDown waiting [15]).keyDown 15 = true := by decide
theorem witness_ParkedStepChangesNothing :
    (at_ 0x1200).loaded = true ∧ State.ParkedAt 0x200 (at_ 0x1200) := by
  unfold State.ParkedAt
  decide
theorem witness_ReturnPopsTheStack :
    0 < ({ start with sp := 1 } : State).sp.val ∧ 0 < ({ start with sp := 16 } : State).sp.val ∧
    start.sp.val = 0 := by decide
theorem witness_JumpsSetOnlyPc :
    (0x0DF#12) ≠ 0x0E0#12 ∧ (0x0DF#12) ≠ 0x0EE#12 ∧ (0x0EF#12) ≠ 0x0E0#12 ∧ (0x0EF#12) ≠ 0x0EE#12 := by decide
theorem witness_CallPushesTheReturnAddress :
    start.sp.val < 16 ∧ ({ start with sp := 15 } : State).sp.val < 16 ∧
    ({ start with sp := 16 } : State).sp.val = 16 := by decide
/-- The state after the CALL is one with the same call stack. -/
theorem witness_ReturnComesBackAfterTheCall :
    ({ start with sp := 15 } : State).sp.val < 16 ∧ ∃ t, exec (.call 0x300) start = .next t ∧ SameStack t t :=
  ⟨by decide, _, rfl, rfl, rfl⟩
theorem witness_SkipsFollowTheirCondition :
    0 < 1 ∧ 15 < 16 ∧ start.getV 0 = 0 ∧ start.getV 15 ≠ 0xFF ∧ start.getV 0 = start.getV 15 ∧
    (regs [(0, 1)]).getV 0 ≠ (regs [(0, 1)]).getV 15 := by decide
theorem witness_AddSetsTheCarry :
    start.cfg.vfAliasMode = .sequential ∧ (flagLast start).cfg.vfAliasMode = .flagLast ∧ (14 : Reg) ≠ VF := by decide
theorem witness_SubSetsNotBorrow :
    (regs [(1, 0x10), (15, 5)]).cfg.vfAliasMode = .sequential ∧
    (flagLast (regs [(1, 5), (15, 5)])).cfg.vfAliasMode = .flagLast ∧ (1 : Reg) ≠ VF := by decide
theorem witness_SubnSetsNotBorrow :
    (regs [(1, 1), (15, 0x10)]).cfg.vfAliasMode = .sequential ∧
    (flagLast (regs [(1, 1)])).cfg.vfAliasMode = .flagLast ∧ (0 : Reg) ≠ VF := by decide
theorem witness_ShrSetsTheBitShiftedOut :
    (regs [(15, 3)]).cfg.vfAliasMode = .sequential ∧ (flagLast (regs [(15, 3)])).cfg.vfAliasMode = .flagLast ∧
    (14 : Reg) ≠ VF := by decide
theorem witness_ShlSetsTheBitShiftedOut :
    (regs [(15, 0x81)]).cfg.vfAliasMode = .sequential ∧ (flagLast (regs [(15, 0x81)])).cfg.vfAliasMode = .flagLast ∧
    (14 : Reg) ≠ VF := by decide
theorem witness_AliasModeMattersOnlyForVF :
    (0 : Reg) ≠ VF ∧ (14 : Reg) ≠ VF ∧
    Instr.shl 0 14 ∈ [Instr.addReg 0 14, .sub 0 14, .shr 0 14, .subn 0 14, .shl 0 14] := by decide
theorem witness_IndexAdd :
    start.cfg.fx1eVf = .unchanged ∧ (overflowFlag { regs [(10, 1)] with i := 0xFFF }).cfg.fx1eVf = .overflowFlag := by
  decide
theorem witness_DecimalDigitsAreStored :
    Memory.wf (regs [(10, 255)]).cfg.font (regs [(10, 255)]).mem ∧ Memory.wf (at_ 0xFA33).cfg.font (at_ 0xFA33).mem := by
  decide
theorem witness_RegistersAreStored :
    Memory.wf (at_ 0xFF55).cfg.font (at_ 0xFF55).mem ∧ (at_ 0xFF55).cfg.loadStoreI = .unchanged ∧
    (increment (at_ 0xF055)).cfg.loadStoreI = .increment ∧ (0 : Reg) ≤ 0 ∧ (15 : Reg) ≤ 15 := by decide
theorem witness_RegistersAreLoaded :
    (at_ 0xFF65).cfg.loadStoreI = .unchanged ∧ (increment (at_ 0xF065)).cfg.loadStoreI = .increment ∧
    (15 : Reg) ≤ 15 ∧ (14 : Reg) < 15 := by decide
theorem witness_StoreThenLoadRestoresRegisters :
    Memory.wf (at_ 0xFF55).cfg.font (at_ 0xFF55).mem ∧ (at_ 0xFF55).cfg.loadStoreI = .unchanged := by decide
theorem witness_StoredCodeIsFetched :
    Memory.wf (at_ 0xF155).cfg.font (at_ 0xF155).mem ∧ 1 ≤ (1 : Reg).val ∧
    ({ at_ 0xF155 with i := 0x202 } : State).i = ({ at_ 0xF155 with i := 0x202 } : State).pc + 2#12 := by decide
theorem witness_MemoryFollowsThePort :
    Transaction.step ≠ .reset ∧ ∃ t r, transact .step ({ at_ 0xFF55 with i := 0xFFE } : State) = .next (t, r) := by
  refine ⟨by decide, ?_⟩
  obtain ⟨t, r, h, -⟩ := next_of_did (s := { at_ 0xFF55 with i := 0xFFE }) (x := .step) (f := fun t _ => t.pc)
    (a := 0x202) (by decide)
  exact ⟨t, r, h⟩
/-- A sprite that falls on a lit cell at the edge, and one that falls on none. -/
theorem witness_DrawXorsTheSprite :
    (SpriteCovers 63 31 [0xC0] 63 31 ∧ SpriteCovers 63 31 [0xC0] 0 31 ∧
      Framebuffer.get (Framebuffer.put start.fb 63 31 true) 63 31 = true) ∧
    ¬ ∃ c r, SpriteCovers 63 31 [] c r ∧ Framebuffer.get start.fb c r = true := by
  refine ⟨⟨⟨0, 0, 0xC0, rfl, ?_⟩, ⟨0, 1, 0xC0, rfl, ?_⟩, ?_⟩, ?_⟩
  · decide
  · decide
  · decide
  · rintro ⟨c, r, ⟨j, k, row, h, -⟩, -⟩
    simp at h
/-- The state after the first draw is such a `u` itself. -/
theorem witness_DrawingTwiceRestoresTheScreen :
    ∃ t, exec (.drw 0 1 5) start = .next t ∧ SameScreen t t ∧ t.getV 0 = start.getV 0 ∧ t.getV 1 = start.getV 1 ∧
      t.i = start.i ∧ SameMem start t :=
  ⟨_, rfl, fun _ _ => rfl, rfl, rfl, rfl, fun _ => rfl⟩
theorem witness_KeySkips :
    ((regs [(3, 15)]).getV 3).toNat < 16 ∧ 16 ≤ ((regs [(3, 16)]).getV 3).toNat ∧
    16 ≤ ((regs [(3, 255)]).getV 3).toNat ∧ start.cfg.keyIndexPolicy = .fault ∧
    (policy .lowNibble start).cfg.keyIndexPolicy = .lowNibble ∧
    (policy .notPressed start).cfg.keyIndexPolicy = .notPressed ∧ start.keyDown 15 = false ∧
    (keysDown start [15]).keyDown 15 = true := by decide
theorem witness_WaitForKey :
    (keysDown start [0]).keyDown 0 = true ∧ (keysDown start [15]).keyDown 15 = true ∧
    ∀ k, start.keyDown k = false := by decide
theorem witness_FaultsArePreciseAndComplete :
    start.run ≠ .halted ∧ ∃ t, exec .ret start = .next t ∧ t.run = .halted := ⟨by decide, _, rfl, rfl⟩
theorem witness_HaltedUntilReset :
    Transaction.reset ∉ [Transaction.step, .tickTimers, .setKey 3 true] ∧ halted.run = .halted ∧
    halted.loaded = true ∧
    ∃ t rs, runTransactions [.step, .tickTimers, .setKey 3 true] halted = .next (t, rs) :=
  ⟨by decide, rfl, rfl, _, _, rfl⟩
/-- Lengths 0, 3584 and 3585. -/
theorem witness_LoadCopiesTheProgram :
    Memory.wf State.reset.cfg.font State.reset.mem ∧ State.reset.loaded = false ∧ start.loaded = true ∧
    ([] : List Byte).length ≤ 3584 ∧ (List.replicate 3584 (0 : Byte)).length ≤ 3584 ∧
    3584 < (List.replicate 3585 (0 : Byte)).length := by
  simp only [List.length_replicate]
  decide
theorem witness_TickDecrementsBothTimers :
    ({ start with dt := 1, st := 255 } : State).dt ≠ 0 ∧ ({ start with dt := 1, st := 255 } : State).st ≠ 0 ∧
    start.dt = 0 ∧ start.st = 0 := by decide
theorem witness_OutputsChangeNothing : ({ start with st := 1 } : State).st ≠ 0 ∧ start.st = 0 := by decide
theorem witness_DebugPortReadsEveryState :
    start.run = .running ∧ waiting.run = .waitingForKey ∧ halted.run = .halted ∧ start.fault = none ∧
    halted.fault = some .stackOverflow ∧ (start.raiseFault .stackUnderflow).fault = some .stackUnderflow ∧
    (start.raiseFault .keyIndexRange).fault = some .keyIndexRange := by decide
theorem witness_SetKeyWritesOneKey : 0 < 16 ∧ 15 < 16 ∧ 16 ≤ 16 := by decide

theorem start_inv : start.Inv := ⟨rfl, by decide, by decide⟩
theorem halted_inv : halted.Inv := ⟨rfl, by decide, by decide⟩
theorem waiting_inv : waiting.Inv := ⟨rfl, by decide, by decide⟩
theorem at_inv : (at_ 0xD015).Inv := ⟨by decide, by decide, by decide⟩

theorem witness_StepKeepsTheInvariant : (at_ 0xD015).Inv ∧ ∃ t, step (at_ 0xD015) = .next t := by
  obtain ⟨t, h, -⟩ := next_of_after (s := start) (w := 0xD015) (f := (·.pc)) (a := 0x202) (by decide)
  exact ⟨at_inv, t, h⟩
theorem witness_RunsKeepTheInvariant :
    State.reset.Inv ∧
    ∃ t rs, runTransactions [.setKey 3 true, .load [0x12, 0x00], .tickTimers] State.reset = .next (t, rs) :=
  ⟨⟨rfl, by decide, by decide⟩, _, _, rfl⟩
/-- A transaction for each kind of change: a tick, `set_key`, `load`, a poll, and steps that write a register and VF, I, a
stack entry and SP, FAULT and RUN, WAITREG. -/
theorem witness_EachStateHasItsOwnWriters :
    (Transaction.tickTimers ≠ .reset ∧ ∃ t r, transact .tickTimers { start with dt := 1, st := 1 } = .next (t, r) ∧
      t.dt ≠ 1 ∧ t.st ≠ 1) ∧
    (Transaction.setKey 15 true ≠ .reset ∧ ∃ t r, transact (.setKey 15 true) start = .next (t, r) ∧ t.key ≠ start.key) ∧
    (Transaction.load [] ≠ .reset ∧ ∃ t r, transact (.load []) State.reset = .next (t, r) ∧ t.loaded ≠ false) ∧
    (Transaction.step ≠ .reset ∧
      did .step (keysDown waiting [3]) (fun t _ => (t.getV 5, t.run)) = some (3, .running) ∧
      did .step ((regs [(10, 0xFF), (11, 1)]).withFetchWord 16 0x8AB4) (fun t _ => (t.getV 10, t.getV VF)) =
        some (0, 1) ∧
      did .step (at_ 0xA123) (fun t _ => t.i) = some 0x123 ∧
      did .step (at_ 0x2300) (fun t _ => (t.stack[0], t.sp)) = some (0x202, 1) ∧
      did .step (at_ 0x00EE) (fun t _ => (t.run, t.fault)) = some (.halted, some .stackUnderflow) ∧
      did .step (at_ 0xF50A) (fun t _ => (t.run, t.waitreg)) = some (.waitingForKey, 5)) := by
  refine ⟨⟨by decide, _, _, rfl, by decide, by decide⟩, ⟨by decide, _, _, rfl, by decide⟩,
    ⟨by decide, _, _, rfl, by decide⟩, by decide⟩
theorem witness_MachineStatesChangeAsStated :
    (∃ t, step (at_ 0xF10A) = .next t ∧ t.run = .waitingForKey) ∧
    (waiting.run = .waitingForKey ∧ ∃ t, step (keysDown waiting [3]) = .next t ∧ t.run = .running) ∧
    ∃ t, step halted = .next t := by
  refine ⟨next_of_after (s := start) (f := (·.run)) (by decide), ⟨rfl, _, rfl, ?_⟩, _, rfl⟩
  decide
theorem witness_PcAfterAnInstruction : start.run = .running ∧ ∃ t, exec .ret start = .next t := ⟨rfl, _, rfl⟩
/-- A machine one call deep. -/
def oneDeep : State := ({ start with sp := 1 } : State).withFetchWord 16 0x00E0

/-- Two machines one call deep that differ in the stack entry at SP and in WAITREG. -/
theorem witness_DeadStateIsNotObservable :
    SameVisible oneDeep { oneDeep with stack := start.stack.set 1 0x222, waitreg := 7 } ∧
    ∃ t, step oneDeep = .next t := by
  refine ⟨⟨rfl, by decide, fun h => absurd h (by decide)⟩, ?_⟩
  obtain ⟨t, h, -⟩ := next_of_after (s := { start with sp := 1 }) (w := 0x00E0) (f := (·.pc)) (a := 0x202) (by decide)
  exact ⟨t, h⟩
theorem witness_SoundTimerIsNeverRead : ∃ t, step oneDeep = .next t :=
  witness_DeadStateIsNotObservable.2

end Sys2Proof.Tests
end

section
/-! PROOFS. The invariant (10_state.md R45, R46, R51; 20_memory.md R70): it holds after reset, and every transaction
keeps it. -/

namespace Sys2Proof.Machine

variable {s t : State}

/-! ## Reset -/

/-- A reset with any settings has the invariant. -/
theorem State.inv_resetWith (cfg : Config) (draws : Nat) : (State.resetWith cfg draws).Inv where
  mem_wf := rfl
  halted_iff := by simp [State.resetWith]
  loaded_of_not_running := fun h => absurd rfl h

/-- Settles O51: it is `State.resetWith` at the default settings. -/
theorem resetHasTheInvariant : Obligations.ResetHasTheInvariant := State.inv_resetWith _ _

/-! ## Each transaction keeps the invariant -/

/-- The invariant speaks only of memory, RUN, FAULT, LOADED and the settings. -/
theorem State.Inv.of_eq (h : s.Inv) (mem : t.mem = s.mem) (run : t.run = s.run) (fault : t.fault = s.fault)
    (loaded : t.loaded = s.loaded) (cfg : t.cfg = s.cfg) : t.Inv where
  mem_wf := by rw [mem, cfg]; exact h.mem_wf
  halted_iff := by rw [run, fault]; exact h.halted_iff
  loaded_of_not_running := by rw [run, loaded]; exact h.loaded_of_not_running

/-- A machine that is not Halted has no cause recorded. -/
theorem State.Inv.fault_eq_none (h : s.Inv) (hr : s.run ≠ .halted) : s.fault = none := by
  simpa [h.halted_iff] using hr

/-- An instruction of a loaded Running machine keeps the invariant: of what it can do to RUN and FAULT, only taking a
fault records a cause, and that halts. -/
theorem exec_inv {i : Instr} (h : s.Inv) (hl : s.loaded = true) (hr : s.run = .running) (he : exec i s = .next t) :
    t.Inv := by
  have hf : s.fault = none := h.fault_eq_none (by simp [hr])
  obtain ⟨-, hloaded, -⟩ := exec_inputs he
  refine ⟨exec_wf h.mem_wf he, ?_, fun _ => hloaded.trans hl⟩
  obtain ⟨hrun, hfault⟩ | ⟨x, -, rfl, -⟩ | ⟨c, rfl⟩ := exec_run he
  · simp [hrun, hfault, hr, hf]
  · simp [hf]
  · simp

/-- A poll of a waiting machine keeps the invariant. -/
theorem keywaitPoll_inv (h : s.Inv) (hr : s.run = .waitingForKey) : s.keywaitPoll.Inv := by
  obtain ⟨k, -, hp⟩ | ⟨-, hp⟩ := s.keywaitPoll_cases <;> rw [hp]
  · have hf : s.fault = none := h.fault_eq_none (by simp [hr])
    exact ⟨h.mem_wf, by simp [hf], fun hn => absurd rfl hn⟩
  · exact h

/-- Every step keeps the invariant. -/
theorem step_inv (h : s.Inv) (hs : step s = .next t) : t.Inv := by
  obtain ⟨hl, ⟨-, rfl⟩ | ⟨hr, rfl⟩ | ⟨hr, ⟨i, -, he⟩ | ⟨e, -, rfl⟩⟩⟩ := step_next hs
  · exact h
  · exact keywaitPoll_inv h hr
  · exact exec_inv h hl hr he
  · exact h.of_eq rfl rfl rfl rfl rfl

/-- A load keeps the invariant: it writes memory byte by byte, and a loaded machine may be in any state. -/
theorem loadRom_inv (h : s.Inv) (rom : List Byte) : (s.loadRom rom).Inv where
  mem_wf := by simpa using State.wf_writeBytes h.mem_wf 0x200 rom
  halted_iff := by simpa using h.halted_iff
  loaded_of_not_running := fun _ => rfl

/-- Everything a transaction that is not refused can be, by what it does to the state. -/
theorem transact_next {x : Transaction} {r : Response} (h : transact x s = .next (t, r)) :
    (x = .reset ∧ t = s.restart) ∨ (∃ rom, x = .load rom ∧ s.loaded = false ∧ t = s.loadRom rom) ∨
    (x = .step ∧ step s = .next t) ∨ (x = .tickTimers ∧ t = s.tick) ∨
    (∃ (k : Reg) (p : Bool), x = .setKey k.val p ∧ t = s.setKey k p) ∨ t = s := by
  cases x <;> simp only [transact] at h
  case load rom =>
    split at h
    · cases h
    · split at h <;> cases h
      · simp
      · rename_i hl _
        exact .inr (.inl ⟨rom, rfl, by simpa using hl, rfl⟩)
  case step =>
    split at h <;> cases h
    exact .inr (.inr (.inl ⟨rfl, ‹_›⟩))
  case setKey k p =>
    split at h <;> cases h
    exact .inr (.inr (.inr (.inr (.inl ⟨⟨k, ‹_›⟩, p, rfl, rfl⟩))))
  all_goals
    cases h
    simp

/-- Every transaction keeps the invariant. -/
theorem transact_inv {x : Transaction} {r : Response} (h : s.Inv) (hx : transact x s = .next (t, r)) : t.Inv := by
  obtain ⟨-, rfl⟩ | ⟨rom, -, -, rfl⟩ | ⟨-, hs⟩ | ⟨-, rfl⟩ | ⟨k, p, -, rfl⟩ | rfl := transact_next hx
  · exact State.inv_resetWith _ _
  · exact loadRom_inv h rom
  · exact step_inv h hs
  · exact h.of_eq rfl rfl rfl rfl rfl
  · exact h.of_eq rfl rfl rfl rfl rfl
  · exact h

/-- What each transaction of a run keeps, the run keeps. -/
theorem runTransactions_induction {P : State → Prop} {xs : List Transaction} {rs : List Response}
    (hP : ∀ x ∈ xs, ∀ (s t : State) (r : Response), P s → transact x s = .next (t, r) → P t) (hs : P s)
    (h : runTransactions xs s = .next (t, rs)) : P t := by
  induction xs generalizing s rs with
  | nil => cases h; exact hs
  | cons x xs ih =>
    obtain ⟨u, r, rs', hx, hxs, -⟩ := runTransactions_cons h
    exact ih (fun y hy => hP y (.tail x hy)) (hP x (.head xs) s u r hs hx) hxs

/-- Settles O53, by induction on the list of transactions. -/
theorem runsKeepTheInvariant : Obligations.RunsKeepTheInvariant :=
  fun _ _ _ _ => runTransactions_induction (P := State.Inv) fun _ _ _ _ _ => transact_inv

end Sys2Proof.Machine
end

section
/-! PROOFS. Who writes what (10_state.md R32 to R47; 20_memory.md R75): one rule per state operation, and from these
what each instruction, step and transaction may change. -/

namespace Sys2Proof.Machine

variable {s t : State} {i : Instr}

/-! ## What an instruction may change -/

/-- Every piece of state that differs between `s` and `t` is one that `i` is a writer of. The inputs KEY, LOADED and the
settings, which have no such writer, are `exec_inputs`. -/
structure WrittenBy (i : Instr) (s t : State) : Prop where
  v : ∀ q : Reg, t.getV q ≠ s.getV q → writesV s.cfg q i = true
  index : t.i ≠ s.i → writesI s.cfg i = true
  stack : ∀ j : Fin 16, t.stack[j] ≠ s.stack[j] → j.val = s.sp.val ∧ ∃ nnn, i = .call nnn
  sp : t.sp ≠ s.sp → i = .ret ∨ ∃ nnn, i = .call nnn
  dt : t.dt ≠ s.dt → ∃ y, i = .ldDtVx y
  st : t.st ≠ s.st → ∃ y, i = .ldStVx y
  fb : t.fb ≠ s.fb → i = .cls ∨ ∃ y z n, i = .drw y z n
  mem : t.mem ≠ s.mem → (∃ y, i = .ldBVx y) ∨ ∃ y, i = .ldMemVx y
  run : t.run ≠ s.run → canFault i = true ∨ ∃ y, i = .ldVxK y
  waitreg : t.waitreg ≠ s.waitreg → ∃ y, i = .ldVxK y
  fault : t.fault ≠ s.fault → canFault i = true
  draws : t.draws ≠ s.draws → (∃ y kk, i = .rnd y kk) ∨ ∃ y, i = .ldVxK y

namespace WrittenBy

/-- Nothing has changed yet. -/
theorem refl (i : Instr) (s : State) : WrittenBy i s s where
  v _ h := absurd rfl h
  index h := absurd rfl h
  stack _ h := absurd rfl h
  sp h := absurd rfl h
  dt h := absurd rfl h
  st h := absurd rfl h
  fb h := absurd rfl h
  mem h := absurd rfl h
  run h := absurd rfl h
  waitreg h := absurd rfl h
  fault h := absurd rfl h
  draws h := absurd rfl h

/-! ### One rule per state operation -/

theorem setV (h : WrittenBy i s t) {x : Reg} (hx : writesV s.cfg x i = true) (b : Byte) :
    WrittenBy i s (t.setV x b) :=
  { h with
    v := fun q hq => by
      by_cases hxq : x = q
      · exact hxq ▸ hx
      · exact h.v q (by rwa [State.getV_setV, if_neg hxq] at hq) }

theorem setPc (h : WrittenBy i s t) (a : Addr) : WrittenBy i s (t.setPc a) := { h with }

theorem advance (h : WrittenBy i s t) : WrittenBy i s t.advance := h.setPc _

theorem skipIf (h : WrittenBy i s t) (c : Bool) : WrittenBy i s (t.skipIf c) := h.setPc _

theorem setI (h : WrittenBy i s t) (hi : writesI s.cfg i = true) (a : Addr) : WrittenBy i s (t.setI a) :=
  { h with index := fun _ => hi }

theorem writeByte (h : WrittenBy i s t) (hi : (∃ y, i = .ldBVx y) ∨ ∃ y, i = .ldMemVx y) (a : Addr) (b : Byte) :
    WrittenBy i s (t.writeByte a b) := { h with mem := fun _ => hi }

theorem nextDraw (h : WrittenBy i s t) (hi : (∃ y kk, i = .rnd y kk) ∨ ∃ y, i = .ldVxK y) :
    WrittenBy i s t.nextDraw := { h with draws := fun _ => hi }

theorem setFb (h : WrittenBy i s t) (hi : i = .cls ∨ ∃ y z n, i = .drw y z n) (fb : Framebuffer) :
    WrittenBy i s (t.setFb fb) := { h with fb := fun _ => hi }

theorem setDt (h : WrittenBy i s t) (hi : ∃ y, i = .ldDtVx y) (b : Byte) : WrittenBy i s (t.setDt b) :=
  { h with dt := fun _ => hi }

theorem setSt (h : WrittenBy i s t) (hi : ∃ y, i = .ldStVx y) (b : Byte) : WrittenBy i s (t.setSt b) :=
  { h with st := fun _ => hi }

theorem raiseFault (h : WrittenBy i s t) (hi : canFault i = true) (c : FaultCause) : WrittenBy i s (t.raiseFault c) :=
  { h with run := fun _ => .inl hi, fault := fun _ => hi }

theorem enterWait (h : WrittenBy i s t) (hi : ∃ y, i = .ldVxK y) (x : Reg) : WrittenBy i s (t.enterWait x) :=
  { h with run := fun _ => .inr hi, waitreg := fun _ => hi }

theorem pop {a : Addr} (hi : i = .ret) (hp : s.pop = .ok (t, a)) : WrittenBy i s t := by
  obtain ⟨-, rfl, -⟩ := State.pop_ok hp
  exact { refl i s with sp := fun _ => .inl hi }

theorem push {a : Addr} (hi : ∃ nnn, i = .call nnn) (hp : s.push a = .ok t) : WrittenBy i s t := by
  obtain ⟨hs, rfl⟩ := State.push_ok hp
  refine { refl i s with sp := fun _ => .inr hi, stack := fun j hj => ⟨?_, hi⟩ }
  by_contra hne
  exact hj (Vector.getElem_set_ne hs j.isLt (Ne.symm hne))

theorem writeFlagged (h : WrittenBy i s t) {x : Reg} (hx : writesV s.cfg x i = true) (hf : writesV s.cfg VF i = true)
    (f : Bool) (g : State → Byte) : WrittenBy i s (t.writeFlagged x f g) := by
  unfold State.writeFlagged
  split
  · exact (h.setV hf _).setV hx _
  · exact (h.setV hx _).setV hf _

theorem setIndexFlag (h : WrittenBy i s t) (hf : t.cfg.fx1eVf = .overflowFlag → writesV s.cfg VF i = true) (f : Bool) :
    WrittenBy i s (t.setIndexFlag f) := by
  unfold State.setIndexFlag
  split
  · exact h
  · exact h.setV (hf ‹_›) _

theorem postIncrement (h : WrittenBy i s t) (hi : t.cfg.loadStoreI = .increment → writesI s.cfg i = true) (n : Nat) :
    WrittenBy i s (t.postIncrement n) := by
  unfold State.postIncrement
  split
  · exact h
  · exact h.setI (hi ‹_›) _

theorem writeBytes (h : WrittenBy i s t) (hi : (∃ y, i = .ldBVx y) ∨ ∃ y, i = .ldMemVx y) (a : Addr) (bs : List Byte) :
    WrittenBy i s (t.writeBytes a bs) := by
  induction bs generalizing t a with
  | nil => exact h
  | cons b bs ih => exact ih (h.writeByte hi a b) _

theorem storeRegs (h : WrittenBy i s t) (hi : (∃ y, i = .ldBVx y) ∨ ∃ y, i = .ldMemVx y) (n : Nat) :
    WrittenBy i s (t.storeRegs n) := by
  induction n with
  | zero => exact h
  | succ n ih => exact ih.writeByte hi _ _

theorem loadRegs (h : WrittenBy i s t) (n : Nat) (hi : ∀ j < n, writesV s.cfg (Fin.ofNat 16 j) i = true) :
    WrittenBy i s (t.loadRegs n) := by
  induction n with
  | zero => exact h
  | succ n ih => exact (ih fun j hj => hi j (by omega)).setV (hi n (by omega)) _

end WrittenBy

/-- The registers that Fx65 loads are among its writers' operands. -/
theorem writesV_ldVxMem (cfg : Config) (x : Reg) {j : Nat} (hj : j < x.val + 1) :
    writesV cfg (Fin.ofNat 16 j) (.ldVxMem x) = true := by
  have : j % 16 ≤ x.val := by omega
  simpa [writesV, Fin.le_def] using this

/-- Every instruction changes only what it is a writer of. -/
theorem exec_writtenBy (h : exec i s = .next t) : WrittenBy i s t := by
  have r := WrittenBy.refl i s
  cases i <;> simp only [exec] at h
  case cls => cases h; exact (r.setFb (.inl rfl) _).advance
  case ret =>
    unfold execRet at h
    split at h <;> cases h
    · exact (WrittenBy.pop rfl ‹_›).setPc _
    · exact r.raiseFault rfl _
  case sys nnn => cases h; exact r.advance
  case jp nnn => cases h; exact r.setPc _
  case call nnn =>
    unfold execCall at h
    split at h <;> cases h
    · exact (WrittenBy.push ⟨nnn, rfl⟩ ‹_›).setPc _
    · exact r.raiseFault rfl _
  case jpV0 nnn => cases h; exact r.setPc _
  case se | sne | seReg | sneReg => cases h; exact r.skipIf _
  case ld | add | ldReg | orReg | andReg | xorReg | ldVxDt => cases h; exact (r.setV (by simp [writesV]) _).advance
  case addReg | sub | shr | subn | shl =>
    cases h
    exact (r.writeFlagged (by simp [writesV]) (by simp [writesV]) _ _).advance
  case rnd x kk => cases h; exact ((r.nextDraw (.inl ⟨x, kk, rfl⟩)).setV (by simp [writesV]) _).advance
  case drw x y n => cases h; exact ((r.setFb (.inr ⟨x, y, n, rfl⟩) _).setV rfl _).advance
  case skp | sknp =>
    simp only [execSkp, execSknp] at h
    split at h <;> cases h
    · exact r.skipIf _
    · exact r.raiseFault rfl _
  case ldVxK x =>
    unfold execLdVxK at h
    split at h <;> cases h
    · exact ((r.nextDraw (.inr ⟨x, rfl⟩)).setV (by simp [writesV]) _).advance
    · exact r.enterWait ⟨x, rfl⟩ x
  case ldI | ldFVx => cases h; exact (r.setI rfl _).advance
  case addIVx x =>
    cases h
    exact ((r.setI rfl _).setIndexFlag (fun hc => by simpa [writesV] using hc) _).advance
  case ldDtVx x => cases h; exact (r.setDt ⟨x, rfl⟩ _).advance
  case ldStVx x => cases h; exact (r.setSt ⟨x, rfl⟩ _).advance
  case ldBVx x => cases h; exact (r.writeBytes (.inl ⟨x, rfl⟩) _ _).advance
  case ldMemVx x =>
    cases h
    exact ((r.storeRegs (.inr ⟨x, rfl⟩) _).postIncrement (fun hc => by simpa [writesI] using hc) _).advance
  case ldVxMem x =>
    cases h
    exact ((r.loadRegs _ fun j => writesV_ldVxMem s.cfg x).postIncrement (fun hc => by simpa [writesI] using hc)
      _).advance

/-! ## What a transaction may change -/

/-- The key a finished wait takes goes to `V[WAITREG]` (44_timers_keys.md R225). -/
theorem State.getV_completeWait (s : State) (k q : Reg) :
    (s.completeWait k).getV q = if s.waitreg = q then BitVec.ofNat 8 k.val else s.getV q :=
  State.getV_setV s.nextDraw s.waitreg q _

/-- Settles O54, by the rules above for a step that executes, and by each other transaction's own fields. -/
theorem eachStateHasItsOwnWriters : Obligations.EachStateHasItsOwnWriters := by
  intro x s t r hx h runs polls
  obtain ⟨rfl, -⟩ | ⟨rom, rfl, -, rfl⟩ | ⟨rfl, hs⟩ | ⟨rfl, rfl⟩ | ⟨k, p, rfl, rfl⟩ | rfl := transact_next h
  · exact absurd rfl hx
  · simp [State.getV]
  · obtain ⟨-, ⟨-, rfl⟩ | ⟨hr, rfl⟩ | ⟨hr, ⟨i, hd, he⟩ | ⟨e, -, rfl⟩⟩⟩ := step_next hs
    · simp
    · have hp : polls := ⟨rfl, hr⟩
      obtain ⟨k, -, hk⟩ | ⟨-, hk⟩ := s.keywaitPoll_cases <;> rw [hk]
      · have hv (q : Reg) (hq : (s.completeWait k).getV q ≠ s.getV q) : q = s.waitreg := by
          by_contra hne
          exact hq (by rw [State.getV_completeWait, if_neg (Ne.symm hne)])
        exact ⟨fun q hq => .inl ⟨hp, hv q hq⟩, by simp [hp]⟩
      · simp
    · have ran {P : Instr → Prop} (hP : P i) : runs P := ⟨rfl, hr, i, hd, hP⟩
      have w := exec_writtenBy he
      obtain ⟨hkey, hloaded, hcfg⟩ := exec_inputs he
      exact ⟨fun q hq => .inr (ran (w.v q hq)), fun hi => ran (w.index hi), fun _ => rfl,
        fun j hj => ⟨(w.stack j hj).1, ran (w.stack j hj).2⟩, fun h => ran (w.sp h), fun h => .inr (ran (w.dt h)),
        fun h => .inr (ran (w.st h)), fun h => ran (w.fb h), fun h => .inr (ran (w.mem h)),
        fun h => absurd hkey h, fun h => absurd hloaded h, fun h => .inr (ran (w.run h)), fun h => ran (w.waitreg h),
        fun h => ran (w.fault h), fun h => .inr (ran (w.draws h)), hcfg⟩
    · simp [State.getV]
  · simp [State.getV, State.tick]
  · simp [State.getV]
  · simp

end Sys2Proof.Machine
end

section
/-! PROOFS. What a program cannot observe (10_state.md R37, R44): the stack entries at SP and above, and WAITREG while
the machine does not wait. -/

namespace Sys2Proof.Machine

/-! ## Another stack and another WAITREG -/

/-- The same machine with other stack entries and another WAITREG: what only RET, CALL, Fx0A and the poll touch. -/
def State.withDead (s : State) (stack : Vector Addr 16) (w : Reg) : State := { s with stack := stack, waitreg := w }

section
variable (s : State) (stack : Vector Addr 16) (w : Reg)

@[simp] theorem State.withDead_cfg : (s.withDead stack w).cfg = s.cfg := rfl
@[simp] theorem State.getV_withDead (x : Reg) : (s.withDead stack w).getV x = s.getV x := rfl
theorem State.setFlag_withDead (f : Bool) : (s.withDead stack w).setFlag f = (s.setFlag f).withDead stack w := rfl
theorem State.setV_withDead (x : Reg) (b : Byte) : (s.withDead stack w).setV x b = (s.setV x b).withDead stack w := rfl

/-- A flagged result commutes with `withDead` when what it computes does not see the dead state. -/
theorem State.writeFlagged_withDead (x : Reg) (f : Bool) (g : State → Byte)
    (hg : ∀ u : State, g (u.withDead stack w) = g u) :
    (s.withDead stack w).writeFlagged x f g = (s.writeFlagged x f g).withDead stack w := by
  cases hc : s.cfg.vfAliasMode <;>
    simp only [State.writeFlagged, State.withDead_cfg, hc, State.setFlag_withDead, State.setV_withDead, hg]

theorem State.setIndexFlag_withDead (f : Bool) :
    (s.withDead stack w).setIndexFlag f = (s.setIndexFlag f).withDead stack w := by
  cases hc : s.cfg.fx1eVf <;> simp only [State.setIndexFlag, State.withDead_cfg, hc, State.setFlag_withDead]

theorem State.postIncrement_withDead (n : Nat) :
    (s.withDead stack w).postIncrement n = (s.postIncrement n).withDead stack w := by
  cases hc : s.cfg.loadStoreI <;> simp only [State.postIncrement, State.withDead_cfg, hc]
  rfl

theorem State.storeRegs_withDead (n : Nat) :
    (s.withDead stack w).storeRegs n = (s.storeRegs n).withDead stack w := by
  induction n with
  | zero => rfl
  | succ n ih => rw [State.storeRegs, ih]; rfl

theorem State.loadRegs_withDead (n : Nat) :
    (s.withDead stack w).loadRegs n = (s.loadRegs n).withDead stack w := by
  induction n with
  | zero => rfl
  | succ n ih => rw [State.loadRegs, ih]; rfl

theorem State.writeBytes_withDead (a : Addr) (bs : List Byte) :
    (s.withDead stack w).writeBytes a bs = (s.writeBytes a bs).withDead stack w := by
  induction bs generalizing s a with
  | nil => rfl
  | cons b bs ih => exact ih (s.writeByte a b) (a + 1#12)

end

variable {s s' t t' : State}

theorem next_advance_withDead {stack : Vector Addr 16} {w : Reg} (h : s' = s.withDead stack w) :
    (.next s'.advance : Host.Outcome State Fault Refusal) = .next (s.advance.withDead stack w) := by
  subst h; rfl

/-- An instruction but RET, CALL and Fx0A does the same whatever the stack entries and WAITREG are. -/
theorem exec_withDead {i : Instr} (hret : i ≠ .ret) (hcall : ∀ nnn, i ≠ .call nnn) (hkey : ∀ x, i ≠ .ldVxK x)
    (h : exec i s = .next t) (stack : Vector Addr 16) (w : Reg) :
    exec i (s.withDead stack w) = .next (t.withDead stack w) := by
  cases i <;> simp only [exec] at h ⊢
  case ret => exact absurd rfl hret
  case call nnn => exact absurd rfl (hcall nnn)
  case ldVxK x => exact absurd rfl (hkey x)
  case addReg | sub | shr | subn | shl =>
    cases h
    exact next_advance_withDead (State.writeFlagged_withDead _ _ _ _ _ _ fun _ => rfl)
  case addIVx x =>
    cases h
    exact next_advance_withDead (State.setIndexFlag_withDead (s.setI (s.i + zext12 (s.getV x))) _ _ _)
  case ldBVx x =>
    cases h
    exact next_advance_withDead (State.writeBytes_withDead _ _ _ _ _)
  case ldMemVx x =>
    cases h
    exact next_advance_withDead (by rw [State.storeRegs_withDead, State.postIncrement_withDead])
  case ldVxMem x =>
    cases h
    exact next_advance_withDead (by rw [State.loadRegs_withDead, State.postIncrement_withDead])
  case skp x =>
    simp only [execSkp, State.withDead_cfg, State.getV_withDead] at h ⊢
    cases hk : keyidx s.cfg.keyIndexPolicy (s.getV x) <;> simp only [hk] at h ⊢ <;> cases h <;> rfl
  case sknp x =>
    simp only [execSknp, State.withDead_cfg, State.getV_withDead] at h ⊢
    cases hk : keyidx s.cfg.keyIndexPolicy (s.getV x) <;> simp only [hk] at h ⊢ <;> cases h <;> rfl
  all_goals
    cases h
    rfl

/-! ## The relation `SameVisible` -/

/-- `SameVisible` is `withDead` with entries that agree below SP and, while the machine waits, the same WAITREG. -/
theorem sameVisible_iff : SameVisible s s' ↔ ∃ stack w, s' = s.withDead stack w ∧
    (∀ j : Fin 16, j.val < s.sp.val → stack[j] = s.stack[j]) ∧ (s.run = .waitingForKey → w = s.waitreg) := by
  constructor
  · rintro ⟨h, hstack, hw⟩
    exact ⟨s'.stack, s'.waitreg, h, hstack, hw⟩
  · rintro ⟨stack, w, rfl, hstack, hw⟩
    exact ⟨rfl, hstack, hw⟩

/-- What keeps the stack and SP and starts no wait keeps `SameVisible`. -/
theorem SameVisible.of_withDead {stack : Vector Addr 16} {w : Reg}
    (hstack : ∀ j : Fin 16, j.val < s.sp.val → stack[j] = s.stack[j]) (hs : ∀ j : Fin 16, t.stack[j] = s.stack[j])
    (hsp : t.sp = s.sp) (hrun : t.run ≠ .waitingForKey) : SameVisible t (t.withDead stack w) :=
  sameVisible_iff.mpr ⟨stack, w, rfl, by simpa only [hs, hsp] using hstack, fun h => absurd h hrun⟩

/-- The result of a step depends on visible state only. -/
theorem SameVisible.stepResult_eq (hs : SameVisible s s') (ht : SameVisible t t') :
    stepResult s' t' = stepResult s t := by
  obtain ⟨_, _, rfl, -, -⟩ := sameVisible_iff.mp hs
  obtain ⟨_, _, rfl, -, -⟩ := sameVisible_iff.mp ht
  rfl

/-! ## Instructions and steps keep the relation -/

/-- RET reads only the entry below SP. -/
theorem execRet_sameVisible (hr : s.run ≠ .waitingForKey) (hv : SameVisible s s') (h : execRet s = .next t) :
    ∃ t', execRet s' = .next t' ∧ SameVisible t t' := by
  obtain ⟨stack, w, rfl, hstack, -⟩ := sameVisible_iff.mp hv
  unfold execRet at h
  split at h <;> cases h <;> rename_i hp
  · obtain ⟨hs, rfl, rfl⟩ := State.pop_ok hp
    have hp' : (s.withDead stack w).pop =
        .ok (({ s with sp := ⟨s.sp.val - 1, by omega⟩ } : State).withDead stack w, stack[s.sp.val - 1]) := dif_pos hs
    have htop : stack[s.sp.val - 1] = s.stack[s.sp.val - 1] := hstack ⟨s.sp.val - 1, by omega⟩ (Nat.sub_one_lt_of_lt hs)
    rw [execRet, hp', htop]
    exact ⟨_, rfl, sameVisible_iff.mpr ⟨stack, w, rfl, fun j hj => hstack j (Nat.lt_of_lt_of_le hj (Nat.sub_le _ _)),
      fun h => absurd h hr⟩⟩
  · have hp' : (s.withDead stack w).pop = .error _ := State.pop_error.mpr (State.pop_error (s := s).mp hp)
    rw [execRet, hp']
    exact ⟨_, rfl, .of_withDead hstack (fun _ => rfl) rfl (by simp)⟩

/-- CALL writes the entry at SP, the same in both machines. -/
theorem execCall_sameVisible {nnn : Addr} (hr : s.run ≠ .waitingForKey) (hv : SameVisible s s')
    (h : execCall nnn s = .next t) : ∃ t', execCall nnn s' = .next t' ∧ SameVisible t t' := by
  obtain ⟨stack, w, rfl, hstack, -⟩ := sameVisible_iff.mp hv
  have hpc : (s.withDead stack w).pc = s.pc := rfl
  unfold execCall at h
  split at h <;> cases h <;> rename_i hp
  · obtain ⟨hs, rfl⟩ := State.push_ok hp
    have hp' : (s.withDead stack w).push (s.pc + 2#12) =
        .ok { s.withDead (stack.set s.sp.val (s.pc + 2#12) hs) w with sp := ⟨s.sp.val + 1, by omega⟩ } := dif_pos hs
    rw [execCall, hpc, hp']
    refine ⟨_, rfl, sameVisible_iff.mpr ⟨stack.set s.sp.val (s.pc + 2#12) hs, w, rfl, fun j hj => ?_,
      fun h => absurd h hr⟩⟩
    simp only [State.setPc_stack, Fin.getElem_fin, Vector.getElem_set]
    split
    · rfl
    · exact hstack j (Nat.lt_of_le_of_ne (Nat.le_of_lt_succ hj) (Ne.symm ‹_›))
  · have hp' : (s.withDead stack w).push (s.pc + 2#12) = .error _ := State.push_error.mpr (State.push_error (s := s).mp hp)
    rw [execCall, hpc, hp']
    exact ⟨_, rfl, .of_withDead hstack (fun _ => rfl) rfl (by simp)⟩

/-- Fx0A writes WAITREG when it waits. -/
theorem execLdVxK_sameVisible {x : Reg} (hv : SameVisible s s') (h : execLdVxK x s = .next t) :
    ∃ t', execLdVxK x s' = .next t' ∧ SameVisible t t' := by
  obtain ⟨stack, w, rfl, hstack, hw⟩ := sameVisible_iff.mp hv
  have hkey : (s.withDead stack w).selectedKey = s.selectedKey := rfl
  cases hk : s.selectedKey <;> simp only [execLdVxK, hkey, hk] at h ⊢ <;> cases h
  · exact ⟨_, rfl, sameVisible_iff.mpr ⟨stack, x, rfl, hstack, fun _ => rfl⟩⟩
  · exact ⟨_, rfl, sameVisible_iff.mpr ⟨stack, w, rfl, hstack, hw⟩⟩

/-- An instruction takes two Running machines that look the same to two that look the same. -/
theorem exec_sameVisible {i : Instr} (hr : s.run = .running) (hv : SameVisible s s') (h : exec i s = .next t) :
    ∃ t', exec i s' = .next t' ∧ SameVisible t t' := by
  by_cases hret : i = .ret
  · subst hret; exact execRet_sameVisible (by simp [hr]) hv h
  by_cases hcall : ∃ nnn, i = .call nnn
  · obtain ⟨nnn, rfl⟩ := hcall; exact execCall_sameVisible (by simp [hr]) hv h
  by_cases hkey : ∃ x, i = .ldVxK x
  · obtain ⟨x, rfl⟩ := hkey; exact execLdVxK_sameVisible hv h
  obtain ⟨stack, w, rfl, hstack, -⟩ := sameVisible_iff.mp hv
  have hw := exec_writtenBy h
  refine ⟨_, exec_withDead hret (not_exists.mp hcall) (not_exists.mp hkey) h stack w, .of_withDead hstack ?_ ?_ ?_⟩
  · exact fun j => by_contra fun hj => hcall (hw.stack j hj).2
  · exact by_contra fun hsp => (hw.sp hsp).elim hret hcall
  · obtain ⟨hrun, -⟩ | ⟨x, hx, -⟩ | ⟨c, rfl⟩ := exec_run h
    · simp [hrun, hr]
    · exact absurd ⟨x, hx⟩ hkey
    · simp

/-- A poll takes two waiting machines that look the same to two that look the same: WAITREG is then visible. -/
theorem keywaitPoll_sameVisible (hr : s.run = .waitingForKey) (hv : SameVisible s s') :
    SameVisible s.keywaitPoll s'.keywaitPoll := by
  obtain ⟨stack, w, rfl, hstack, hw⟩ := sameVisible_iff.mp hv
  have hkey : (s.withDead stack w).selectedKey = s.selectedKey := rfl
  obtain rfl := hw hr
  cases hk : s.selectedKey <;> simp only [State.keywaitPoll, hkey, hk]
  · exact hv
  · exact sameVisible_iff.mpr ⟨stack, s.waitreg, rfl, hstack, fun _ => rfl⟩

/-- A step takes two machines that look the same to two that look the same. -/
theorem step_sameVisible (hv : SameVisible s s') (h : step s = .next t) :
    ∃ t', step s' = .next t' ∧ SameVisible t t' := by
  obtain ⟨stack, w, rfl, hstack, -⟩ := sameVisible_iff.mp hv
  have hloaded : (s.withDead stack w).loaded = s.loaded := rfl
  have hrun : (s.withDead stack w).run = s.run := rfl
  have hword : (s.withDead stack w).fetchWord = s.fetchWord := rfl
  obtain ⟨hl, ⟨hr, rfl⟩ | ⟨hr, rfl⟩ | ⟨hr, ⟨i, hd, he⟩ | ⟨e, hd, rfl⟩⟩⟩ := step_next h <;>
    simp only [step, hloaded, hrun, hword, hl, hr, if_true]
  · exact ⟨_, rfl, hv⟩
  · exact ⟨_, rfl, keywaitPoll_sameVisible hr hv⟩
  · simpa only [hd] using exec_sameVisible hr hv he
  · simp only [hd]
    exact ⟨_, rfl, .of_withDead hstack (fun _ => rfl) rfl (by simp [hr])⟩

/-- Settles O57: a step keeps `SameVisible`, and its result depends on visible state only. -/
theorem deadStateIsNotObservable : Obligations.DeadStateIsNotObservable := by
  intro s s' t hv h
  obtain ⟨t', h', hv'⟩ := step_sameVisible hv h
  exact ⟨t', h', hv', hv.stepResult_eq hv'⟩

end Sys2Proof.Machine
end

section
/-! PROOFS. The step as the driver sees it (10_state.md R43, R46): it answers whenever a program is loaded, and moves the
machine state along the stated arrows only. -/

namespace Sys2Proof.Machine

/-- Every instruction answers a next state, in every state. -/
theorem exec_answers (i : Instr) (s : State) : ∃ t, exec i s = .next t := by
  cases i <;> simp only [exec]
  case ret => unfold execRet; split <;> exact ⟨_, rfl⟩
  case call nnn => unfold execCall; split <;> exact ⟨_, rfl⟩
  case skp x => unfold execSkp; split <;> exact ⟨_, rfl⟩
  case sknp x => unfold execSknp; split <;> exact ⟨_, rfl⟩
  case ldVxK x => unfold execLdVxK; split <;> exact ⟨_, rfl⟩
  all_goals exact ⟨_, rfl⟩

/-- Settles O12, by the machine state and then by the fetched word. -/
theorem loadedStepAlwaysAnswers : Obligations.LoadedStepAlwaysAnswers := by
  refine fun s => ⟨fun hl => ?_, fun hl => by simp [step, hl]⟩
  simp only [step, hl, if_true]
  split
  · exact ⟨_, rfl⟩
  · exact ⟨_, rfl⟩
  · split
    · exact exec_answers _ s
    · exact ⟨_, rfl⟩

/-- An instruction that makes a Running machine wait is Fx0A with no key pressed. -/
theorem exec_waits {i : Instr} {s t : State} (hr : s.run = .running) (h : exec i s = .next t)
    (ht : t.run = .waitingForKey) : ∃ x, i = .ldVxK x ∧ t = s.enterWait x ∧ s.selectedKey = none := by
  obtain ⟨hrun, -⟩ | hwait | ⟨c, rfl⟩ := exec_run h
  · simp [hrun, hr] at ht
  · exact hwait
  · simp at ht

/-- Settles O55, one arrow for each machine state the step starts in. -/
theorem machineStatesChangeAsStated : Obligations.MachineStatesChangeAsStated := by
  intro s t h
  obtain ⟨-, ⟨hr, rfl⟩ | ⟨hr, rfl⟩ | ⟨hr, ⟨i, hd, he⟩ | ⟨e, -, rfl⟩⟩⟩ := step_next h <;>
    simp only [hr, reduceCtorEq, false_implies, true_implies, true_and, and_true]
  · obtain ⟨k, hk, hp⟩ | ⟨-, hp⟩ := s.keywaitPoll_cases <;> rw [hp]
    · exact fun _ => ⟨rfl, k, State.selectedKey_down hk⟩
    · exact fun hn => absurd hr hn
  · intro ht
    obtain ⟨x, rfl, rfl, hk⟩ := exec_waits hr he ht
    exact ⟨x, hd, rfl, rfl, (State.selectedKey_none s).mp hk⟩
  · simp [hr]

end Sys2Proof.Machine
end

section
/-! PROOFS. The driver's other transactions (10_state.md R51, R61 to R64): reset, the outputs, the debug port, the keys. -/

namespace Sys2Proof.Machine

/-! ## Reset -/

/-- A memory that lists nothing reads as FONT_DATA, and 0 above it. -/
theorem Memory.read_nil (font : FontData) (a : Nat) :
    Memory.read font [] a = if h : a < 80 then font[a] else 0 := by
  simp only [Memory.read, Memory.lookup, Option.getD_none, Memory.unlisted]
  split <;> rename_i h
  · exact List.getD_eq_getElem _ _ (by simpa using h)
  · exact List.getD_eq_default _ _ (by simpa using h)

/-- A reset with any settings leaves every piece of state at its reset value. -/
theorem State.atReset_resetWith (cfg : Config) (draws : Nat) : (State.resetWith cfg draws).AtReset cfg where
  v x := by simp [State.resetWith, State.getV]
  i := rfl
  pc := rfl
  sp := rfl
  stack j := by simp [State.resetWith]
  dt := rfl
  st := rfl
  fb := Framebuffer.get_cleared
  key k := by simp [State.resetWith, State.keyDown]
  font a h := (Memory.read_nil cfg.font a.toNat).trans (dif_pos h)
  rest a h := (Memory.read_nil cfg.font a.toNat).trans (dif_neg (Nat.not_lt.mpr h))
  run := rfl
  waitreg := rfl
  fault := rfl
  loaded := rfl
  cfg_kept := rfl

/-- Settles O45: both are `State.resetWith`. -/
theorem resetLeavesTheResetValues : Obligations.ResetLeavesTheResetValues :=
  ⟨State.atReset_resetWith _ _, fun s => ⟨s.restart, rfl, State.atReset_resetWith _ _, rfl⟩⟩

/-! ## The outputs and the debug port -/

/-- Settles O48, by the two cases of ST. -/
theorem outputsChangeNothing : Obligations.OutputsChangeNothing := by
  refine fun s => ⟨rfl, fun h => ?_, fun h => ?_⟩
  · simpa [transact, State.toneActive] using h
  · simp [transact, State.toneActive, h]

/-- Settles O49, name by name. -/
theorem debugPortReadsEveryState : Obligations.DebugPortReadsEveryState := by
  intro s read
  have reads {name : StateName} {n : Nat} (h : s.debugRead name = n) : read name n := h ▸ rfl
  have run {r : RunState} (h : s.run = r) : read .run r.code := reads (congrArg RunState.code h)
  have fault {c : Option FaultCause} (h : s.fault = c) : read .fault (faultCode c) := reads (congrArg faultCode h)
  exact ⟨fun _ => rfl, fun _ => rfl, rfl, rfl, fun _ => rfl, rfl, rfl, rfl, fun _ _ => reads (Bool.cond_eq_ite ..),
    fun _ => reads (Bool.cond_eq_ite ..), run, run, run, rfl, fault, fault, fault, fault, reads (Bool.cond_eq_ite ..)⟩

/-! ## The keys -/

/-- A key read after `set_key`. -/
theorem State.keyDown_setKey (s : State) (k j : Reg) (p : Bool) :
    (s.setKey k p).keyDown j = if j = k then p else s.keyDown j := by
  simp [State.keyDown, State.setKey, Vector.getElem_set, Fin.ext_iff, eq_comm]

/-- Settles O50: the frame is that of a record update of KEY. -/
theorem setKeyWritesOneKey : Obligations.SetKeyWritesOneKey := by
  refine fun k p s => ⟨fun hk => ⟨s.setKey ⟨k, hk⟩ p, dif_pos hk, fun j => ?_, rfl, .of_eq rfl _, rfl, rfl,
    .of_eq rfl rfl, ⟨rfl, rfl⟩, ⟨rfl, rfl⟩, .of_eq rfl, ⟨rfl, rfl, rfl, rfl⟩, rfl⟩, fun hk => dif_neg (Nat.not_lt.mpr hk)⟩
  simp [State.keyDown_setKey, Fin.ext_iff]

end Sys2Proof.Machine
end

section
/-! PROOFS. The fetch and the memory port (20_memory.md R73, R74, R80, R81, R83): the fetched word is the two bytes at PC,
an instruction's own bytes run it, and memory changes by the port's writes only. -/

/-! ## The word of an instruction reads back (30_encoding.md R95, R96) -/

namespace Sys2Proof

/-- A word of family 0 that is neither CLS nor RET is SYS. -/
theorem decode0_formA {nnn : Addr} (hcls : nnn ≠ 0x0E0#12) (hret : nnn ≠ 0x0EE#12) :
    decode0 (formA 0#4 nnn) = .sys nnn := by
  have ne {w : Word} (hw : nnn ≠ nnnField w) : formA 0#4 nnn ≠ w := fun h => hw (by rw [← h, nnnField_formA])
  rw [decode0, if_neg (ne (w := 0x00E0#16) hcls), if_neg (ne (w := 0x00EE#16) hret), nnnField_formA]

/-- The decoder undoes the encoder, family by family. -/
theorem decode_encode {i : Instr} (h : i.WellFormed) : decode (encode i) = .ok i := by
  cases i <;> simp only [encode]
  case cls | ret => decide
  case sys nnn =>
    obtain ⟨hcls, hret⟩ : nnn ≠ 0x0E0#12 ∧ nnn ≠ 0x0EE#12 := by simpa [Instr.WellFormed, Instr.wellFormed] using h
    simp [decode, decode0_formA hcls hret]
  case ldReg | orReg | andReg | xorReg | addReg | sub | shr | subn | shl => simp [decode, decode8]
  case skp | sknp => simp [decode, decodeE]
  case ldVxDt | ldVxK | ldDtVx | ldStVx | addIVx | ldFVx | ldBVx | ldMemVx | ldVxMem => simp [decode, decodeF]
  all_goals simp [decode]

end Sys2Proof

namespace Sys2Proof.Machine

variable {s t : State} {i : Instr}

/-! ## The fetch -/

/-- The fetched word as a number, the byte at PC first. -/
theorem State.fetchWord_toNat (s : State) :
    s.fetchWord.toNat = 256 * (s.readByte s.pc).toNat + (s.readByte (s.pc + 1#12)).toNat := wordOfBytes_toNat _ _

/-- Settles O9: the byte after 0xFFF is the one at 0xFFF + 1 = 0 mod 4096. -/
theorem fetchIsBigEndianAndWraps : Obligations.FetchIsBigEndianAndWraps := by
  refine fun s => ⟨s.fetchWord_toNat, fun hpc => ?_⟩
  have hwrap : (0xFFF : Addr) + 1#12 = 0x000 := by decide
  rw [s.fetchWord_toNat, hpc, hwrap]

/-- A loaded Running machine runs the instruction it fetches. -/
theorem step_of_decode (hl : s.loaded = true) (hr : s.run = .running) (hd : decode s.fetchWord = .ok i) :
    step s = exec i s := by
  simp [step, hl, hr, hd]

/-- Settles O8: the two bytes make up the instruction's word, and that word reads back as the instruction. -/
theorem stepRunsEncodedBytes : Obligations.StepRunsEncodedBytes := by
  intro s i hl hr hi hhi hlo
  have hword : s.fetchWord = encode i := by
    apply BitVec.eq_of_toNat_eq
    rw [s.fetchWord_toNat, hhi, hlo]
    exact Nat.div_add_mod _ _
  exact step_of_decode hl hr (hword ▸ decode_encode hi)

/-- Settles O35: the next fetch reads the places of V0 and V1 in the store. -/
theorem storedCodeIsFetched : Obligations.StoredCodeIsFetched := by
  intro x s hw hx hi
  have stored (j : Nat) (hj : j < x.val + 1) :
      ((s.storeRegs (x.val + 1)).postIncrement (x.val + 1)).advance.readByte (s.indirect j) = s.getV (Fin.ofNat 16 j) :=
    (State.postIncrement_readByte _ _ _).trans (State.readByte_storeRegs_inside hw _ (by omega) j hj)
  refine ⟨_, rfl, ?_⟩
  have h0 : ((s.storeRegs (x.val + 1)).postIncrement (x.val + 1)).advance.pc = s.indirect 0 := by
    simp [State.indirect, hi]
  have h1 : s.indirect 0 + 1#12 = s.indirect 1 := by simp [State.indirect]
  rw [State.fetchWord_toNat, h0, h1, stored 0 (by omega), stored 1 (by omega)]
  rfl

/-! ## The port -/

/-- No instruction but Fx33 and Fx55 writes memory. -/
theorem exec_keeps_mem (hB : ∀ x, i ≠ .ldBVx x) (hM : ∀ x, i ≠ .ldMemVx x) (h : exec i s = .next t) :
    t.mem = s.mem := by
  by_contra hne
  obtain ⟨x, hx⟩ | ⟨x, hx⟩ := (exec_writtenBy h).mem hne
  · exact hB x hx
  · exact hM x hx

/-- What an instruction leaves in memory is what the port leaves after serving the instruction's own accesses: only Fx33
and Fx55 write, and the others' accesses are reads. -/
theorem exec_mem_eq_serveAll (h : exec i s = .next t) : t.mem = (s.serveAll (s.execAccesses i)).1.mem := by
  cases i
  case ldBVx x =>
    cases h
    rw [State.execAccesses, State.serveAll_writesFrom]
    rfl
  case ldMemVx x =>
    cases h
    rw [State.execAccesses, State.serveAll_storeRegs]
    simp
  case drw | ldVxMem =>
    rw [State.execAccesses, State.serveAll_reads]
    exact exec_keeps_mem (by simp) (by simp) h
  all_goals exact exec_keeps_mem (by simp) (by simp) h

/-- The same for a step: its fetch reads leave memory, and a poll or a skipped word writes none. -/
theorem step_mem_eq_serveAll (h : step s = .next t) : t.mem = (s.serveAll s.stepAccesses).1.mem := by
  obtain ⟨hl, ⟨hr, rfl⟩ | ⟨hr, rfl⟩ | ⟨hr, ⟨i, hd, he⟩ | ⟨e, hd, rfl⟩⟩⟩ := step_next h <;>
    simp only [State.stepAccesses, hl, hr]
  · rfl
  · obtain ⟨k, -, hp⟩ | ⟨-, hp⟩ := s.keywaitPoll_cases <;> rw [hp] <;> rfl
  · simp only [hd]
    exact exec_mem_eq_serveAll he
  · simp only [hd]
    rfl

/-- Settles O36: a load and a step are the transactions that reach memory. -/
theorem memoryFollowsThePort : Obligations.MemoryFollowsThePort := by
  intro s t x r hx h
  cases x <;> simp only [transact] at h
  case reset => exact absurd rfl hx
  case load rom =>
    split at h
    · cases h
    · split at h <;> cases h <;> rename_i hl hlen
      · simp [State.accesses, hlen, State.serveAll]
      · simp [State.accesses, hl, hlen, State.serveAll_writesFrom]
  case step =>
    split at h <;> cases h
    exact step_mem_eq_serveAll ‹_›
  case setKey k p =>
    split at h <;> cases h
    rfl
  case debugRead name => cases h; cases name <;> rfl
  all_goals
    cases h
    rfl

end Sys2Proof.Machine
end

section
/-! PROOFS. The decoder and the encoder as two readings of one table (30_encoding.md R92, R95 to R97): the round trip from
a word, the words that are rejected, and each row's fixed bits. -/

namespace Sys2Proof

/-! ## From a word to an instruction and back -/

/-- Settles O1: it is `decode_encode`. -/
theorem decodeInvertsEncode : Obligations.DecodeInvertsEncode := fun _ => decode_encode

section
variable {w : Word} {i : Instr}

/-- A major opcode read as a number is the field itself. -/
theorem opField_eq {op : BitVec 4} (h : (opField w).toNat = op.toNat) : opField w = op := BitVec.eq_of_toNat_eq h

/-- A word of format A, from its major opcode. -/
theorem formA_of_op {op : BitVec 4} (h : (opField w).toNat = op.toNat) : formA op (nnnField w) = w :=
  opField_eq h ▸ formA_fields w

/-- A word of formats XK and X, from its major opcode. -/
theorem formXK_of_op {op : BitVec 4} (h : (opField w).toNat = op.toNat) : formXK op (xField w) (kkField w) = w :=
  opField_eq h ▸ formXK_fields w

/-- A word of format XYN, from its major opcode. -/
theorem formXYN_of_op {op : BitVec 4} (h : (opField w).toNat = op.toNat) :
    formXYN op (xField w) (yField w) (nField w) = w :=
  opField_eq h ▸ formXYN_fields w

/-- A word of format X, from its major opcode and its byte. -/
theorem formXK_of_op_kk {op : BitVec 4} {kk : Byte} (h : (opField w).toNat = op.toNat) (hkk : kkField w = kk) :
    formXK op (xField w) kk = w :=
  hkk ▸ formXK_of_op h

/-- A word of format XYN, from its major opcode and its nibble. -/
theorem formXYN_of_op_n {op n : BitVec 4} (h : (opField w).toNat = op.toNat) (hn : nField w = n) :
    formXYN op (xField w) (yField w) n = w :=
  hn ▸ formXYN_of_op h

/-- Family 0: SYS is what is left beside the words of CLS and RET (30_encoding.md R96). -/
theorem encode_decode0 (h : (opField w).toNat = 0) : (decode0 w).WellFormed ∧ encode (decode0 w) = w := by
  have hw : formA 0#4 (nnnField w) = w := formA_of_op h
  unfold decode0
  split
  · exact ⟨rfl, Eq.symm ‹_›⟩
  split
  · exact ⟨rfl, Eq.symm ‹_›⟩
  have hcls : nnnField w ≠ 0x0E0#12 := fun h => ‹w ≠ 0x00E0#16› (by rw [← hw, h]; rfl)
  have hret : nnnField w ≠ 0x0EE#12 := fun h => ‹w ≠ 0x00EE#16› (by rw [← hw, h]; rfl)
  exact ⟨by simp [Instr.WellFormed, Instr.wellFormed, hcls, hret], hw⟩

theorem encode_decode8 (h : (opField w).toNat = 8) (hd : decode8 w = .ok i) : i.WellFormed ∧ encode i = w := by
  unfold decode8 at hd
  split at hd <;> cases hd <;>
    exact ⟨rfl, formXYN_of_op_n h (BitVec.eq_of_toNat_eq ‹_›)⟩

theorem encode_decodeE (h : (opField w).toNat = 0xE) (hd : decodeE w = .ok i) : i.WellFormed ∧ encode i = w := by
  unfold decodeE at hd
  split_ifs at hd <;> cases hd <;> exact ⟨rfl, formXK_of_op_kk h ‹_›⟩

theorem encode_decodeF (h : (opField w).toNat = 0xF) (hd : decodeF w = .ok i) : i.WellFormed ∧ encode i = w := by
  unfold decodeF at hd
  split_ifs at hd <;> cases hd <;> exact ⟨rfl, formXK_of_op_kk h ‹_›⟩

/-- A word that decodes is the word of a well-formed instruction, family by family. -/
theorem encode_decode (hd : decode w = .ok i) : i.WellFormed ∧ encode i = w := by
  unfold decode at hd
  split at hd
  case h_1 h => cases hd; exact encode_decode0 h
  case h_2 h | h_3 h | h_11 h | h_12 h => cases hd; exact ⟨rfl, formA_of_op h⟩
  case h_4 h | h_5 h | h_7 h | h_8 h | h_13 h => cases hd; exact ⟨rfl, formXK_of_op h⟩
  case h_6 h | h_10 h => split at hd <;> cases hd; exact ⟨rfl, formXYN_of_op_n h ‹_›⟩
  case h_9 h => exact encode_decode8 h hd
  case h_14 h => cases hd; exact ⟨rfl, formXYN_of_op h⟩
  case h_15 h => exact encode_decodeE h hd
  case h_16 =>
    simp only [imp_false] at *
    have h : (opField w).toNat = 0xF := by have := (opField w).isLt; omega
    exact encode_decodeF h hd

end

/-- Settles O2: it is `encode_decode`. -/
theorem encodeInvertsDecode : Obligations.EncodeInvertsDecode := fun _ _ => encode_decode

/-! ## The rows of the opcode table (30_encoding.md R92) -/

open Laws in
/-- Every instruction's word agrees with its row: the family `TableRow`, over all constructors. -/
theorem encode_and_tableMask : ∀ i : Instr, encode i &&& i.tableMask = i.tableMatch
  | .cls => TableRow.cls
  | .ret => TableRow.ret
  | .sys nnn => TableRow.sys nnn
  | .jp nnn => TableRow.jp nnn
  | .call nnn => TableRow.call nnn
  | .se x kk => TableRow.se x kk
  | .sne x kk => TableRow.sne x kk
  | .seReg x y => TableRow.seReg x y
  | .ld x kk => TableRow.ld x kk
  | .add x kk => TableRow.add x kk
  | .ldReg x y => TableRow.ldReg x y
  | .orReg x y => TableRow.orReg x y
  | .andReg x y => TableRow.andReg x y
  | .xorReg x y => TableRow.xorReg x y
  | .addReg x y => TableRow.addReg x y
  | .sub x y => TableRow.sub x y
  | .shr x y => TableRow.shr x y
  | .subn x y => TableRow.subn x y
  | .shl x y => TableRow.shl x y
  | .sneReg x y => TableRow.sneReg x y
  | .ldI nnn => TableRow.ldI nnn
  | .jpV0 nnn => TableRow.jpV0 nnn
  | .rnd x kk => TableRow.rnd x kk
  | .drw x y n => TableRow.drw x y n
  | .skp x => TableRow.skp x
  | .sknp x => TableRow.sknp x
  | .ldVxDt x => TableRow.ldVxDt x
  | .ldVxK x => TableRow.ldVxK x
  | .ldDtVx x => TableRow.ldDtVx x
  | .ldStVx x => TableRow.ldStVx x
  | .addIVx x => TableRow.addIVx x
  | .ldFVx x => TableRow.ldFVx x
  | .ldBVx x => TableRow.ldBVx x
  | .ldMemVx x => TableRow.ldMemVx x
  | .ldVxMem x => TableRow.ldVxMem x

/-- Settles O5: the decoded word is its instruction's word, which agrees with its row. -/
theorem decodedWordMatchesItsTableRow : Obligations.DecodedWordMatchesItsTableRow := by
  intro w i hd
  obtain ⟨-, rfl⟩ := encode_decode hd
  exact encode_and_tableMask i

/-! ## The words that are no instruction (30_encoding.md R97) -/

section
variable {w : Word} {e : DecodeReject}

theorem kkField_eq_iff {b : Byte} : kkField w = b ↔ w.toNat % 256 = b.toNat := by
  rw [← BitVec.toNat_inj, kkField_toNat]

theorem nField_eq_iff {b : BitVec 4} : nField w = b ↔ w.toNat % 16 = b.toNat := by
  rw [← BitVec.toNat_inj, nField_toNat]

theorem decode8_error_iff :
    decode8 w = .error e ↔ e = .family8 ∧ w.toNat % 16 ∈ [8, 9, 0xA, 0xB, 0xC, 0xD, 0xF] := by
  unfold decode8
  rw [nField_toNat]
  split
  case h_10 =>
    simp only [imp_false] at *
    have hn : w.toNat % 16 ∈ [8, 9, 0xA, 0xB, 0xC, 0xD, 0xF] := by
      simp only [List.mem_cons, List.not_mem_nil, or_false]
      omega
    simp [hn, eq_comm]
  all_goals simp [*]

theorem decodeE_error_iff : decodeE w = .error e ↔ e = .familyE ∧ w.toNat % 256 ∉ [0x9E, 0xA1] := by
  unfold decodeE
  simp only [kkField_eq_iff]
  split_ifs <;> simp_all [eq_comm]

theorem decodeF_error_iff : decodeF w = .error e ↔
    e = .familyF ∧ w.toNat % 256 ∉ [0x07, 0x0A, 0x15, 0x18, 0x1E, 0x29, 0x33, 0x55, 0x65] := by
  unfold decodeF
  simp only [kkField_eq_iff]
  split_ifs <;> simp_all [eq_comm]

/-- The space of words that goes by each name, in the numbers of its fields (30_encoding.md R97). -/
def DecodeReject.Space (w : Word) : DecodeReject → Prop
  | .family5 => w.toNat / 4096 = 5 ∧ w.toNat % 16 ≠ 0
  | .family8 => w.toNat / 4096 = 8 ∧ w.toNat % 16 ∈ [8, 9, 0xA, 0xB, 0xC, 0xD, 0xF]
  | .family9 => w.toNat / 4096 = 9 ∧ w.toNat % 16 ≠ 0
  | .familyE => w.toNat / 4096 = 0xE ∧ w.toNat % 256 ∉ [0x9E, 0xA1]
  | .familyF => w.toNat / 4096 = 0xF ∧ w.toNat % 256 ∉ [0x07, 0x0A, 0x15, 0x18, 0x1E, 0x29, 0x33, 0x55, 0x65]

/-- The decoder rejects a word under a name exactly in that name's space: by the major opcode, and in families 8, E and F
by the family's own decoder. -/
theorem decode_error_iff : decode w = .error e ↔ e.Space w := by
  unfold decode
  rw [opField_toNat]
  split
  case h_6 h | h_10 h =>
    simp only [nField_eq_iff]
    split <;> cases e <;> simp_all [DecodeReject.Space]
  case h_9 h => rw [decode8_error_iff]; cases e <;> simp [DecodeReject.Space, h]
  case h_15 h => rw [decodeE_error_iff]; cases e <;> simp [DecodeReject.Space, h]
  case h_16 =>
    simp only [imp_false] at *
    have h : w.toNat / 4096 = 0xF := by omega
    rw [decodeF_error_iff]; cases e <;> simp [DecodeReject.Space, h]
  all_goals cases e <;> simp [DecodeReject.Space, *]

end

/-- Settles O3, one name after another. -/
theorem decodeRejectsExactlyTheFiveSpaces : Obligations.DecodeRejectsExactlyTheFiveSpaces :=
  fun _ => ⟨decode_error_iff, decode_error_iff, decode_error_iff, decode_error_iff, decode_error_iff⟩

/-- Settles O4 by evaluating the decoder on each word. -/
theorem decodeReadsSampleWords : Obligations.DecodeReadsSampleWords := by
  unfold Obligations.DecodeReadsSampleWords
  decide

end Sys2Proof

namespace Sys2Proof.Machine

/-- Settles O7: the word of the two bytes is `State.fetchWord`. -/
theorem stepRunsTheDecodedInstruction : Obligations.StepRunsTheDecodedInstruction :=
  fun _ _ hl hr _ hd => step_of_decode hl hr hd

end Sys2Proof.Machine
end

section
/-! PROOFS. Where an instruction leaves PC (30_encoding.md R102, 40_control_flow.md R140). -/

namespace Sys2Proof.Machine

/-- The target of JP V0 as a number (40_control_flow.md R138). -/
theorem State.v0Target_toNat (s : State) (nnn : Addr) :
    (s.v0Target nnn).toNat = (nnn.toNat + (s.getV 0).toNat) % 4096 := by
  simp [State.v0Target, zext12]

theorem State.skipIf_pc_cases (s : State) (c : Bool) :
    (s.skipIf c).pc = s.pc + 2#12 ∨ (s.skipIf c).pc = s.pc + 4#12 := by
  cases c
  · exact .inl rfl
  · exact .inr rfl

/-- Settles O56, instruction by instruction: the jumps and RET set PC, the skips choose, a fault or a key wait leaves PC,
and every other instruction ends with the default advance. -/
theorem pcAfterAnInstruction : Obligations.PcAfterAnInstruction := by
  intro i s t _ h
  cases i <;> simp only [exec] at h
  case jp nnn => cases h; exact .inr (.inr (.inl ⟨nnn, .inl rfl, rfl⟩))
  case jpV0 nnn => cases h; exact .inr (.inr (.inr (.inl ⟨nnn, rfl, s.v0Target_toNat nnn⟩)))
  case call nnn =>
    unfold execCall at h
    split at h <;> cases h
    · exact .inr (.inr (.inl ⟨nnn, .inr rfl, rfl⟩))
    · exact .inr (.inr (.inr (.inr (.inr ⟨rfl, .inr rfl⟩))))
  case ret =>
    unfold execRet at h
    split at h <;> cases h
    · obtain ⟨hs, rfl, rfl⟩ := State.pop_ok ‹_›
      exact .inr (.inr (.inr (.inr (.inl ⟨rfl, ⟨s.sp.val - 1, by omega⟩, Nat.sub_add_cancel hs, rfl⟩))))
    · exact .inr (.inr (.inr (.inr (.inr ⟨rfl, .inr rfl⟩))))
  case se x kk | sne x kk =>
    cases h
    exact (s.skipIf_pc_cases _).imp_right fun hpc => .inl ⟨hpc, .inl ⟨x, kk, by simp⟩⟩
  case seReg x y | sneReg x y =>
    cases h
    exact (s.skipIf_pc_cases _).imp_right fun hpc => .inl ⟨hpc, .inr (.inl ⟨x, y, by simp⟩)⟩
  case skp x | sknp x =>
    simp only [execSkp, execSknp] at h
    split at h <;> cases h
    · exact (s.skipIf_pc_cases _).imp_right fun hpc => .inl ⟨hpc, .inr (.inr ⟨x, by simp⟩)⟩
    · exact .inr (.inr (.inr (.inr (.inr ⟨rfl, .inr rfl⟩))))
  case ldVxK x =>
    unfold execLdVxK at h
    split at h <;> cases h
    · exact .inl rfl
    · exact .inr (.inr (.inr (.inr (.inr ⟨rfl, .inl rfl⟩))))
  all_goals
    cases h
    exact .inl (by simp)

end Sys2Proof.Machine
end

section
/-! PROOFS. Assembly text and words (30_encoding.md R106 to R108): operands build their instruction, and the text of a word
assembles to it. -/

namespace Sys2Proof.Machine

/-! ## Operands build their instruction -/

theorem asAddr_toNat (sym : Symbols) (a : Addr) : asAddr sym (.num a.toNat) = some a := by
  simp [asAddr, a.isLt]

theorem asByte_toNat (b : Byte) : asByte (.num b.toNat) = some b := by simp [asByte, b.isLt]

theorem asNibble_toNat (n : BitVec 4) : asNibble (.num n.toNat) = some n := by simp [asNibble, n.isLt]

/-- By the kind of number an instruction's operands hold. SHR and SHL show y only where it is not 0, and without it the
assembler takes y = 0. -/
theorem buildInstr_operands (sym : Symbols) (i : Instr) :
    buildInstr sym (instrMnemonic i) (instrOperands i) = some i := by
  cases i
  case shr x y | shl x y =>
    by_cases hy : y = 0
    · subst hy; rfl
    · simp only [instrMnemonic, instrOperands, if_neg hy]; rfl
  case sys | jp | call | jpV0 | ldI => simp [instrMnemonic, instrOperands, buildInstr, asAddr_toNat]
  case se | sne | ld | add | rnd => simp [instrMnemonic, instrOperands, buildInstr, asByte_toNat]
  case drw => simp [instrMnemonic, instrOperands, buildInstr, asNibble_toNat]
  all_goals rfl

/-- Settles O6: it is `buildInstr_operands`, which needs no well-formedness. -/
theorem assemblerBuildsEveryInstruction : Obligations.AssemblerBuildsEveryInstruction :=
  fun sym i _ => buildInstr_operands sym i

/-! ## Printed operands -/

section
variable {digits : Nat} {os : List AsmOperand}

/-- Printed operands stay on their line: no comment begins in them. -/
theorem operandsText_chars (ho : ∀ o ∈ os, o.Printable digits) : ∀ c ∈ operandsText digits os, c ≠ ';' ∧ c ≠ '\n' := by
  have hc (o) (h : o ∈ os) (c) (hm : c ∈ o.text digits) := (AsmOperand.text_chars (ho o h) c hm).2.2
  cases os with
  | nil => simp [operandsText]
  | cons o os =>
    intro c h
    simp only [operandsText_cons, List.mem_append, List.mem_flatten, List.mem_map] at h
    obtain h | ⟨_, ⟨p, hp, rfl⟩, h⟩ := h
    · exact hc o (.head os) c h
    · obtain (rfl | rfl) | h : (c = ',' ∨ c = ' ') ∨ c ∈ p.text digits := by simpa [or_assoc] using h
      · decide
      · decide
      · exact hc p (.tail o hp) c h

theorem operandsText_ne_nil {o : AsmOperand} (ho : o.Printable digits) : operandsText digits (o :: os) ≠ [] := by
  simp [operandsText_cons, AsmOperand.text_ne_nil ho]

theorem operandsText_head? (ho : ∀ o ∈ os, o.Printable digits) :
    ∀ c, (operandsText digits os).head? = some c → isBlank c = false := by
  cases os with
  | nil => simp [operandsText]
  | cons o os =>
    have ho' := ho o (.head os)
    intro c h
    rw [operandsText_cons, List.head?_append_of_ne_nil _ (AsmOperand.text_ne_nil ho')] at h
    exact (AsmOperand.text_chars ho' c (List.mem_of_mem_head? h)).1

theorem operandsText_getLast? (ho : ∀ o ∈ os, o.Printable digits) :
    ∀ c, (operandsText digits os).getLast? = some c → isBlank c = false := by
  induction os with
  | nil => simp [operandsText]
  | cons o os ih =>
    cases os with
    | nil => exact fun c h => (AsmOperand.text_chars (ho o (.head [])) c (List.mem_of_getLast? h)).1
    | cons p os =>
      have htext :
          operandsText digits (o :: p :: os) = (o.text digits ++ ", ".toList) ++ operandsText digits (p :: os) := by
        simp [operandsText]
      have hne := operandsText_ne_nil (os := os) (ho p (.tail o (.head os)))
      rw [htext, List.getLast?_append_of_ne_nil _ hne]
      exact ih fun q hq => ho q (.tail o hq)

/-- Printed operands have no white space around them. -/
theorem trim_operandsText (ho : ∀ o ∈ os, o.Printable digits) : trim (operandsText digits os) = operandsText digits os :=
  trim_of (operandsText_head? ho) (operandsText_getLast? ho)

/-- What stands after a name on a line: nothing, or a space and printed operands. -/
def operandsTail (digits : Nat) : List AsmOperand → List Char
  | [] => []
  | o :: os => ' ' :: operandsText digits (o :: os)

theorem operandsTail_cases (digits : Nat) (os : List AsmOperand) :
    operandsTail digits os = [] ∨ ∃ cs, operandsTail digits os = ' ' :: cs := by
  cases os with
  | nil => exact .inl rfl
  | cons o os => exact .inr ⟨_, rfl⟩

theorem operandsTail_chars (ho : ∀ o ∈ os, o.Printable digits) : ∀ c ∈ operandsTail digits os, c ≠ ';' ∧ c ≠ '\n' := by
  cases os with
  | nil => simp [operandsTail]
  | cons o os => exact List.forall_mem_cons.mpr ⟨by decide, operandsText_chars ho⟩

theorem mapM_id_map_some {α : Type} (l : List α) : (l.map some).mapM id = some l := by
  induction l with
  | nil => rfl
  | cons a l ih => simp [ih]

/-- The operands after a name are read back. -/
theorem readList_operandsTail (hk : digits = 1 ∨ digits = 2 ∨ digits = 3) (ho : ∀ o ∈ os, o.Printable digits) :
    readList readOperand (operandsTail digits os) = some os := by
  cases os with
  | nil => rfl
  | cons o os =>
    have hne : trim (' ' :: operandsText digits (o :: os)) ≠ [] := by
      rw [trim_space, trim_operandsText ho]
      exact operandsText_ne_nil (ho o (.head os))
    rw [operandsTail, readList, if_neg hne, (readPieces_operandsText hk (by simp) ho).2, mapM_id_map_some]

/-! ## A line of a name and operands -/

/-- No character of a name ends the name or the content of its line. -/
theorem identChar_plain {c : Char} (h : identChar c = true) : isBlank c = false ∧ c ≠ ';' ∧ c ≠ '\n' := by
  refine ⟨?_, ?_, ?_⟩
  · by_contra hb
    simp only [isBlank, Bool.not_eq_false, Bool.or_eq_true, beq_iff_eq] at hb
    obtain (rfl | rfl) | rfl := hb
    all_goals exact absurd h (by decide)
  · rintro rfl; exact absurd h (by decide)
  · rintro rfl; exact absurd h (by decide)

/-- A name and printed operands are a line without white space around it. -/
theorem trim_name_operandsTail {name : List Char} (hne : name ≠ []) (hname : ∀ c ∈ name, identChar c = true)
    (ho : ∀ o ∈ os, o.Printable digits) : trim (name ++ operandsTail digits os) = name ++ operandsTail digits os := by
  apply trim_of
  · intro c h
    rw [List.head?_append_of_ne_nil _ hne] at h
    exact (identChar_plain (hname c (List.mem_of_mem_head? h))).1
  · cases os with
    | nil =>
      intro c h
      exact (identChar_plain (hname c (List.mem_of_getLast? (by simpa [operandsTail] using h)))).1
    | cons o os =>
      have htext : name ++ operandsTail digits (o :: os) = (name ++ [' ']) ++ operandsText digits (o :: os) := by
        simp [operandsTail]
      rw [htext, List.getLast?_append_of_ne_nil _ (operandsText_ne_nil (ho o (.head os)))]
      exact operandsText_getLast? ho

/-- A name and printed operands are a line with no label. -/
theorem readLine_name_operandsTail {name : List Char} (hne : name ≠ []) (hname : ∀ c ∈ name, identChar c = true)
    (ho : ∀ o ∈ os, o.Printable digits) {it : AsmItem} (hit : readItem (name ++ operandsTail digits os) = some it) :
    readLine (name ++ operandsTail digits os) = some { label := none, item := some it } := by
  have hcomment : (name ++ operandsTail digits os).takeWhile (· ≠ ';') = name ++ operandsTail digits os := by
    refine List.takeWhile_eq_self_iff.mpr fun c hc => decide_eq_true ?_
    exact (List.mem_append.mp hc).elim (fun h => (identChar_plain (hname c h)).2.1) fun h => (operandsTail_chars ho c h).1
  have hlabel : (name ++ operandsTail digits os).dropWhile identChar = operandsTail digits os := by
    rw [List.dropWhile_append_of_pos hname]
    obtain h | ⟨cs, h⟩ := operandsTail_cases digits os <;> simp [h, identChar, identStart]
  have hitem : readItem? (name ++ operandsTail digits os) = some (some it) := by simp [readItem?, hne, hit]
  simp only [readLine, hcomment, trim_name_operandsTail hne hname ho, hlabel, hitem]
  obtain h | ⟨cs, h⟩ := operandsTail_cases digits os <;> simp [h]

/-- A text of a name and printed operands is assembled as the bytes of its item. -/
theorem assemble_name_operandsTail {name : List Char} (hne : name ≠ []) (hname : ∀ c ∈ name, identChar c = true)
    (ho : ∀ o ∈ os, o.Printable digits) {it : AsmItem} {bs : List Byte}
    (hit : readItem (name ++ operandsTail digits os) = some it) (hb : it.bytes [] = some bs) :
    assemble (name ++ operandsTail digits os) = some (cellsFrom 0x200 bs) := by
  refine assemble_line (readLine_name_operandsTail hne hname ho hit) (fun hn => ?_) hb
  exact (List.mem_append.mp hn).elim (fun h => (identChar_plain (hname _ h)).2.2 rfl) fun h =>
    (operandsTail_chars ho _ h).2 rfl

end

/-! ## The text of a word -/

theorem instrText_eq (i : Instr) :
    instrText i = (instrMnemonic i).text ++ operandsTail (instrDigits i) (instrOperands i) := by
  unfold instrText
  split <;> rename_i h <;> simp [h, operandsTail, operandsText_cons]

/-- A well-formed instruction's text is assembled as its word. -/
theorem assemble_instrText {i : Instr} (hi : i.WellFormed) :
    assemble (instrText i) = some (cellsFrom 0x200 (wordBytes (encode i))) := by
  obtain ⟨hne, hall, -⟩ := (instrMnemonic i).text_spec
  have hname : ∀ c ∈ (instrMnemonic i).text, identChar c = true := fun c hc => by
    have := List.all_eq_true.mp hall c hc
    simp only [Bool.and_eq_true] at this
    exact this.1.1.1
  have ho := instrOperands_printable i
  have hread := readList_operandsTail (instrDigits_cases i) ho
  rw [instrText_eq]
  refine assemble_name_operandsTail hne hname ho (readItem_text hread (operandsTail_cases _ _)) ?_
  simp [AsmItem.bytes, buildInstr_operands, hi]

/-- `DW` and four digits are read as one word. -/
theorem readItem_dw {n : Nat} (hn : n < 65536) : readItem ("DW".toList ++ ' ' :: hexText 4 n) = some (.dw [n]) := by
  have hc := AsmOperand.text_chars (digits := 4) (o := .num n) hn
  have htrim : trim (hexText 4 n) = hexText 4 n := trim_of_all fun c h => (hc c h).1
  have hcomma : ',' ∉ ' ' :: hexText 4 n := List.not_mem_cons_of_ne_of_not_mem (by decide) fun h => (hc _ h).2.1 rfl
  have hlist : readList readNumber (' ' :: hexText 4 n) = some [n] := by
    have hne : hexText 4 n ≠ [] := by simp [hexText]
    simp [readList, trim_space, htrim, hne, splitAtChar_of_not_mem hcomma, readNumber_hexText (k := 4) (by simp) hn]
  simp [readItem, List.takeWhile, List.dropWhile, isBlank, hlist]

/-- `DW` and four digits are assembled as the word they write. -/
theorem assemble_dw (w : Word) :
    assemble ("DW ".toList ++ hexText 4 w.toNat) = some (cellsFrom 0x200 (wordBytes w)) := by
  have hname : ∀ c ∈ "DW".toList, identChar c = true := List.all_eq_true.mp (by decide)
  have ho : ∀ o ∈ [AsmOperand.num w.toNat], o.Printable 4 := List.forall_mem_singleton.mpr w.isLt
  have hb : (AsmItem.dw [w.toNat]).bytes [] = some (wordBytes w) := by simp [AsmItem.bytes, w.isLt]
  exact assemble_name_operandsTail (by decide) hname ho (readItem_dw w.isLt) hb

/-- The text of every word is assembled as that word. -/
theorem assemble_disassemble (w : Word) : assemble (disassemble w) = some (cellsFrom 0x200 (wordBytes w)) := by
  unfold disassemble
  split
  · obtain ⟨hi, hw⟩ := encode_decode ‹_›
    rw [assemble_instrText hi, hw]
  · exact assemble_dw w

/-- Settles O59: the text of a word by what the word decodes to; the digits of DW and SYS are `hexText`. -/
theorem assembledTextIsTheWord : Obligations.AssembledTextIsTheWord := by
  refine ⟨assemble_disassemble, fun w e hd => ?_, fun nnn hcls hret => ?_⟩
  · exact ⟨_, rfl, by simp only [disassemble, hd]; rfl⟩
  · have hw : wordA 0x0 nnn = encode (.sys nnn) := formA_eq_wordA 0#4 nnn
    have hi : (Instr.sys nnn).WellFormed := by simp [Instr.WellFormed, Instr.wellFormed, hcls, hret]
    refine ⟨(hexText 3 nnn.toNat).drop 2, rfl, ?_⟩
    simp only [disassemble, hw, decode_encode hi]
    rfl

end Sys2Proof.Machine
end

section
/-! PROOFS. Control flow (40_control_flow.md R130 to R140): what RET and CALL do to the stack, where the jumps and the
skips go, and that nothing else changes. -/

namespace Sys2Proof.Machine

variable {s : State} {i : Instr}

/-! ## The words -/

/-- A word that is the encoding of a well-formed instruction decodes to it. -/
theorem decode_of_eq_encode {w : Word} (hw : w = encode i) (hi : i.WellFormed) : decode w = .ok i :=
  hw ▸ decode_encode hi

theorem wordXYN_toNat {op n : Nat} (x y : Reg) (hop : op < 16) (hn : n < 16) :
    (wordXYN op x y n).toNat = op * 4096 + x.val * 256 + y.val * 16 + n := by
  rw [wordXYN, BitVec.toNat_ofNat]
  omega

/-- The words `op x y n` with n ≠ 0 keep `op` and a nonzero low nibble, the two numbers families 5 and 9 are told by. -/
theorem wordXYN_op_n {op n : Nat} (x y : Reg) (hop : op < 16) (h0 : 0 < n) (hn : n < 16) :
    (wordXYN op x y n).toNat / 4096 = op ∧ (wordXYN op x y n).toNat % 16 ≠ 0 := by
  rw [wordXYN_toNat x y hop hn]
  omega

/-! ## CALL and RET -/

/-- A new call stack and PC leave everything else. -/
theorem SameButStack.of_stack_setPc (s : State) (stack : Vector Addr 16) (sp : Fin 17) (a : Addr) :
    SameButStack s (State.setPc { s with stack := stack, sp := sp } a) :=
  ⟨.of_eq rfl _, rfl, .of_eq rfl rfl, ⟨rfl, rfl⟩, .of_eq rfl, ⟨rfl, rfl, rfl, rfl⟩, ⟨rfl, rfl⟩, rfl⟩

/-- RET with an entry on the stack: the pop and the jump to what it takes (R130). -/
theorem exec_ret_of_pos (h : 0 < s.sp.val) :
    exec .ret s = .next
      (State.setPc { s with sp := ⟨s.sp.val - 1, by omega⟩ } (s.stack[s.sp.val - 1]'(by omega))) := by
  simp [exec, execRet, State.pop, h]

/-- RET with an empty stack. -/
theorem exec_ret_of_empty (h : s.sp.val = 0) : exec .ret s = .next (s.raiseFault .stackUnderflow) := by
  simp only [exec, execRet, State.pop_error.mpr ⟨h, rfl⟩]

/-- CALL with room on the stack: the push of `PC + 2` and the jump (R133). -/
theorem exec_call_of_lt {nnn : Addr} (h : s.sp.val < 16) :
    exec (.call nnn) s = .next (State.setPc
      { s with stack := s.stack.set s.sp.val (s.pc + 2#12) h, sp := ⟨s.sp.val + 1, by omega⟩ } nnn) := by
  simp [exec, execCall, State.push, h]

/-- CALL with a full stack. -/
theorem exec_call_of_full {nnn : Addr} (h : s.sp.val = 16) :
    exec (.call nnn) s = .next (s.raiseFault .stackOverflow) := by
  simp only [exec, execCall, State.push_error.mpr ⟨h, rfl⟩]

/-- Settles O15, by the two cases of SP. -/
theorem returnPopsTheStack : Obligations.ReturnPopsTheStack := by
  refine ⟨decode_of_eq_encode (i := .ret) rfl rfl, fun s => ⟨fun h => ?_, fun h => ?_⟩⟩
  · exact ⟨_, exec_ret_of_pos h, rfl, rfl, rfl, .of_stack_setPc .., .executed rfl⟩
  · exact ⟨_, exec_ret_of_empty h, .of_raiseFault .., .faulted (.of_raiseFault ..)⟩

/-- Settles O17, by the two cases of SP; the push writes the entry at SP and no other. -/
theorem callPushesTheReturnAddress : Obligations.CallPushesTheReturnAddress := by
  refine fun nnn s => ⟨decode_of_eq_encode (formA_eq_wordA 0x2#4 nnn) rfl, fun h => ?_, fun h => ?_⟩
  · refine ⟨_, exec_call_of_lt h, rfl, rfl, ?_, fun j hj => ?_, .of_stack_setPc .., .executed rfl⟩
    · simp
    · exact Vector.getElem_set_ne h j.isLt hj.symm
  · exact ⟨_, exec_call_of_full h, .of_raiseFault .., .faulted (.of_raiseFault ..)⟩

/-- Settles O18, from what CALL and RET do: the entry RET takes is the one CALL wrote, at the SP before the CALL. -/
theorem returnComesBackAfterTheCall : Obligations.ReturnComesBackAfterTheCall := by
  intro nnn s hs
  obtain ⟨-, hcall, -⟩ := callPushesTheReturnAddress nnn s
  obtain ⟨t, ht, -, htsp, htop, -⟩ := hcall hs
  refine ⟨t, ht, fun u ⟨husp, hustack⟩ => ?_⟩
  have hu : u.sp.val = s.sp.val + 1 := by rw [husp, htsp]
  obtain ⟨-, hret⟩ := returnPopsTheStack
  obtain ⟨w, hw, hpc, hwsp, -⟩ := (hret u).1 (by omega)
  refine ⟨w, hw, ?_, Fin.ext (by omega)⟩
  simp only [Advanced, hpc, hustack, hu, Nat.add_sub_cancel, htop]

/-! ## Jumps and skips -/

/-- Settles O16: each of the three ends with a write of PC alone. -/
theorem jumpsSetOnlyPc : Obligations.JumpsSetOnlyPc := by
  refine fun nnn s => ⟨fun hcls hret => ?_, ⟨_, rfl, .of_pc rfl, .of_advance s, .executed rfl⟩,
    decode_of_eq_encode (formA_eq_wordA 0x1#4 nnn) rfl, ⟨_, rfl, rfl, .of_setPc s _, .executed rfl⟩,
    decode_of_eq_encode (formA_eq_wordA 0xB#4 nnn) rfl,
    ⟨_, rfl, s.v0Target_toNat nnn, .of_setPc s _, .executed rfl⟩⟩
  exact decode_of_eq_encode (formA_eq_wordA 0x0#4 nnn) (by simp [Instr.WellFormed, Instr.wellFormed, hcls, hret])

/-- An instruction that ends with a skip on `c` skips where `c` holds, advances where it does not, and changes PC alone
(R140). -/
theorem exec_of_skipIf {c : Bool} {skips advances : Prop} (h : exec i s = .next (s.skipIf c))
    (hskips : skips → c = true) (hadvances : advances → c = false) :
    ∃ t, exec i s = .next t ∧ (skips → Skipped s t) ∧ (advances → Advanced s t) ∧ SameButPc s t ∧
      Returns .executed i s t := by
  refine ⟨_, h, fun hp => .of_pc ?_, fun hp => .of_pc ?_, .of_skipIf s c, .executed rfl⟩
  · simp [hskips hp]
  · simp [hadvances hp]

/-- Settles O19: each skip ends with `State.skipIf` on its own comparison, and the other words of families 5 and 9 are
no instruction. -/
theorem skipsFollowTheirCondition : Obligations.SkipsFollowTheirCondition := by
  intro x y kk s
  exact ⟨decode_of_eq_encode (formXK_eq_wordXK 0x3#4 x kk) rfl,
    exec_of_skipIf rfl beq_iff_eq.mpr beq_eq_false_iff_ne.mpr,
    decode_of_eq_encode (formXK_eq_wordXK 0x4#4 x kk) rfl,
    exec_of_skipIf rfl bne_iff_ne.mpr bne_eq_false_iff_eq.mpr,
    decode_of_eq_encode (formXYN_eq_wordXYN 0x5#4 x y 0#4) rfl,
    exec_of_skipIf rfl beq_iff_eq.mpr beq_eq_false_iff_ne.mpr,
    fun _ h0 hn => decode_error_iff.mpr (wordXYN_op_n x y (by decide) h0 hn),
    decode_of_eq_encode (formXYN_eq_wordXYN 0x9#4 x y 0#4) rfl,
    exec_of_skipIf rfl bne_iff_ne.mpr bne_eq_false_iff_eq.mpr,
    fun _ h0 hn => decode_error_iff.mpr (wordXYN_op_n x y (by decide) h0 hn)⟩

end Sys2Proof.Machine
end

section
/-! PROOFS. Loads and arithmetic (41_alu.md R150 to R163): what the write of one register and the flagged write leave,
in numbers, and that nothing else changes. -/

namespace Sys2Proof.Machine

variable {s : State} {i : Instr} {x y : Reg} {f : Bool} {g : State → Byte}

/-! ## A result without a flag -/

/-- After the write of one register and the advance, everything else is as before. -/
theorem frame_setV_advance (i : Instr) (s : State) (x : Reg) (b : Byte) :
    SameRegsBut [x] s (s.setV x b).advance ∧ (s.setV x b).advance.i = s.i ∧ Advanced s (s.setV x b).advance ∧
      SameButRegs s (s.setV x b).advance ∧ Returns .executed i s (s.setV x b).advance :=
  ⟨.of_setV rfl, rfl, .of_pc rfl, .of_eq rfl rfl rfl rfl rfl rfl rfl rfl rfl rfl rfl rfl rfl, .executed rfl⟩

/-- What the register holds after the write and the advance. -/
theorem getV_setV_advance (s : State) (x : Reg) (b : Byte) : (s.setV x b).advance.getV x = b := s.getV_setV_same x b

/-- Settles O20: each of the three writes Vx alone, the sum mod 256 being the byte's own. -/
theorem loadsAndImmediateAdd : Obligations.LoadsAndImmediateAdd := by
  intro x y kk s
  refine ⟨decode_of_eq_encode (formXK_eq_wordXK 0x6#4 x kk) rfl,
    ⟨_, rfl, getV_setV_advance .., frame_setV_advance ..⟩,
    decode_of_eq_encode (formXK_eq_wordXK 0x7#4 x kk) rfl, ⟨_, rfl, ?sum, frame_setV_advance ..⟩,
    decode_of_eq_encode (formXYN_eq_wordXYN 0x8#4 x y 0#4) rfl,
    ⟨_, rfl, getV_setV_advance .., frame_setV_advance ..⟩⟩
  case sum => rw [getV_setV_advance, BitVec.toNat_add]

/-- Settles O21: each of the three writes Vx alone, and the operation on bytes is bit by bit. -/
theorem bitwiseLogic : Obligations.BitwiseLogic := by
  intro x y s
  refine ⟨decode_of_eq_encode (formXYN_eq_wordXYN 0x8#4 x y 1#4) rfl,
    ⟨_, rfl, fun b _ => ?or, frame_setV_advance ..⟩,
    decode_of_eq_encode (formXYN_eq_wordXYN 0x8#4 x y 2#4) rfl,
    ⟨_, rfl, fun b _ => ?and, frame_setV_advance ..⟩,
    decode_of_eq_encode (formXYN_eq_wordXYN 0x8#4 x y 3#4) rfl,
    ⟨_, rfl, fun b _ => ?xor, frame_setV_advance ..⟩⟩
  case or => rw [getV_setV_advance, BitVec.getLsbD_or]
  case and => rw [getV_setV_advance, BitVec.getLsbD_and]
  case xor => rw [getV_setV_advance, BitVec.getLsbD_xor]

/-- Settles O28: the draw is counted, then Vx alone is written. -/
theorem randomIsMasked : Obligations.RandomIsMasked := by
  refine fun x kk s => ⟨decode_of_eq_encode (formXK_eq_wordXK 0xC#4 x kk) rfl, _, rfl, fun b _ => ?_, rfl,
    .of_setV rfl, rfl, .of_pc rfl, .of_eq rfl rfl, ⟨rfl, rfl⟩, ⟨rfl, rfl⟩, .of_eq rfl, ⟨rfl, rfl, rfl, rfl⟩,
    ⟨rfl, rfl⟩, .executed rfl⟩
  rw [getV_setV_advance, BitVec.getLsbD_and, State.randomByte]

/-! ## The flags and the results in numbers -/

/-- The flag of a comparison. -/
theorem flagByte_decide_toNat (p : Prop) [Decidable p] : (flagByte (decide p)).toNat = if p then 1 else 0 := by
  by_cases hp : p <;> simp [flagByte, hp]

/-- The bit a right shift drops is the remainder by 2. -/
theorem flagByte_shiftedOutRight_toNat (a : Byte) : (flagByte (shiftedOutRight a)).toNat = a.toNat % 2 := by
  rw [shiftedOutRight, BitVec.getLsbD, Nat.testBit_zero, flagByte_decide_toNat]
  split <;> omega

/-- The bit a left shift drops is the quotient by 128. -/
theorem flagByte_shiftedOutLeft_toNat (a : Byte) : (flagByte (shiftedOutLeft a)).toNat = a.toNat / 128 := by
  have := a.isLt
  rw [shiftedOutLeft, BitVec.getLsbD, Nat.testBit_eq_decide_div_mod_eq, flagByte_decide_toNat]
  split <;> omega

theorem byte_sub_toNat (a b : Byte) : (a - b).toNat = (256 + a.toNat - b.toNat) % 256 := by
  have := b.isLt
  rw [BitVec.toNat_sub]
  omega

theorem byte_shiftRight_one_toNat (a : Byte) : (a >>> 1).toNat = a.toNat / 2 := by
  rw [BitVec.toNat_ushiftRight, Nat.shiftRight_eq_div_pow]

theorem byte_shiftLeft_one_toNat (a : Byte) : (a <<< 1).toNat = a.toNat * 2 % 256 := by
  rw [BitVec.toNat_shiftLeft, Nat.shiftLeft_eq]

/-- An operand read after the flag's write: the flag where the operand is VF. -/
theorem State.getV_setFlag_toNat (s : State) (f : Bool) (r : Reg) :
    ((s.setFlag f).getV r).toNat = if r = VF then (flagByte f).toNat else (s.getV r).toNat := by
  rw [State.getV_setFlag]
  by_cases hr : r = VF
  · rw [if_pos hr, if_pos hr.symm]
  · rw [if_neg hr, if_neg (Ne.symm hr)]

/-! ## A result with a flag -/

/-- An instruction that ends with the flagged write: under `sequential` the result is taken after the flag's write and
written last, under `flag_last` it is taken first and the flag is written last (R157). -/
theorem exec_of_writeFlagged {flag afterFlag beforeFlag : Nat}
    (h : exec i s = .next (s.writeFlagged x f g).advance) (hflag : (flagByte f).toNat = flag)
    (hafter : (g (s.setFlag f)).toNat = afterFlag) (hbefore : (g s).toNat = beforeFlag) :
    ∃ t, exec i s = .next t ∧
      (s.cfg.vfAliasMode = .sequential →
        (t.getV x).toNat = afterFlag ∧ (x ≠ VF → (t.getV VF).toNat = flag)) ∧
      (s.cfg.vfAliasMode = .flagLast →
        (t.getV VF).toNat = flag ∧ (x ≠ VF → (t.getV x).toNat = beforeFlag)) ∧
      SameRegsBut [x, VF] s t ∧ t.i = s.i ∧ Advanced s t ∧ SameButRegs s t ∧ Returns .executed i s t := by
  have hget (r : Reg) : (s.writeFlagged x f g).advance.getV r = _ := s.getV_writeFlagged x r f g
  refine ⟨_, h, fun hm => ⟨?_, fun hx => ?_⟩, fun hm => ⟨?_, fun hx => ?_⟩, .of_writeFlagged rfl, by simp,
    .of_pc (by simp), by apply SameButRegs.of_eq <;> simp, .executed (by simp)⟩
  · simp [hget, hm, hafter]
  · simp [hget, hm, hx, hflag]
  · simp [hget, hm, hflag]
  · simp [hget, hm, Ne.symm hx, hbefore]

/-- Settles O22: the sum does not depend on the registers as they stand, so both orders write the same one. -/
theorem addSetsTheCarry : Obligations.AddSetsTheCarry := fun x y _ =>
  ⟨decode_of_eq_encode (formXYN_eq_wordXYN 0x8#4 x y 4#4) rfl,
    exec_of_writeFlagged rfl (flagByte_decide_toNat _) (BitVec.toNat_add ..) (BitVec.toNat_add ..)⟩

/-- The difference of two registers read after the write of a flag that is `flag` in numbers. -/
theorem State.sub_setFlag_toNat {flag : Nat} (hflag : (flagByte f).toNat = flag) :
    ((s.setFlag f).getV x - (s.setFlag f).getV y).toNat =
      (256 + (if x = VF then flag else (s.getV x).toNat) - (if y = VF then flag else (s.getV y).toNat)) % 256 := by
  rw [byte_sub_toNat, s.getV_setFlag_toNat, s.getV_setFlag_toNat, hflag]

/-- Settles O23: the NOT-borrow is a comparison, and under `sequential` the difference reads it where an operand is
VF. -/
theorem subSetsNotBorrow : Obligations.SubSetsNotBorrow := fun x y s =>
  have hflag := flagByte_decide_toNat ((s.getV y).toNat < (s.getV x).toNat)
  ⟨decode_of_eq_encode (formXYN_eq_wordXYN 0x8#4 x y 5#4) rfl,
    exec_of_writeFlagged rfl hflag (State.sub_setFlag_toNat hflag) (byte_sub_toNat ..)⟩

/-- Settles O24, as for SUB with the operands exchanged. -/
theorem subnSetsNotBorrow : Obligations.SubnSetsNotBorrow := fun x y s =>
  have hflag := flagByte_decide_toNat ((s.getV x).toNat < (s.getV y).toNat)
  ⟨decode_of_eq_encode (formXYN_eq_wordXYN 0x8#4 x y 7#4) rfl,
    exec_of_writeFlagged rfl hflag (State.sub_setFlag_toNat hflag) (byte_sub_toNat ..)⟩

/-- Settles O25: the flag is the remainder by 2 and the result the half, of the flag itself where `sequential` has
written it to Vx. -/
theorem shrSetsTheBitShiftedOut : Obligations.ShrSetsTheBitShiftedOut := by
  intro x y s
  refine ⟨decode_of_eq_encode (formXYN_eq_wordXYN 0x8#4 x y 6#4) rfl,
    exec_of_writeFlagged rfl (flagByte_shiftedOutRight_toNat _) ?_ (byte_shiftRight_one_toNat _)⟩
  rw [byte_shiftRight_one_toNat, State.getV_setFlag_toNat, flagByte_shiftedOutRight_toNat]

/-- Settles O26: the flag is the quotient by 128 and the result the double mod 256, of the flag itself where
`sequential` has written it to Vx. -/
theorem shlSetsTheBitShiftedOut : Obligations.ShlSetsTheBitShiftedOut := by
  intro x y s
  refine ⟨decode_of_eq_encode (formXYN_eq_wordXYN 0x8#4 x y 14#4) rfl,
    exec_of_writeFlagged rfl (flagByte_shiftedOutLeft_toNat _) ?_ (byte_shiftLeft_one_toNat _)⟩
  rw [byte_shiftLeft_one_toNat, State.getV_setFlag_toNat, flagByte_shiftedOutLeft_toNat]

/-! ## The two write orders -/

/-- The state with another setting of `VF_ALIAS_MODE`. -/
def State.withAliasMode (s : State) (m : VfAliasMode) : State := { s with cfg := { s.cfg with vfAliasMode := m } }

@[simp] theorem State.getV_withAliasMode (m : VfAliasMode) (r : Reg) : (s.withAliasMode m).getV r = s.getV r := rfl

theorem State.getV_setFlag_of_ne {r : Reg} (hr : r ≠ VF) : (s.setFlag f).getV r = s.getV r := by
  rw [State.getV_setFlag, if_neg (Ne.symm hr)]

/-- Writes to VF and to another register commute. -/
theorem State.setV_setFlag_comm (hx : x ≠ VF) (b : Byte) : (s.setV x b).setFlag f = (s.setFlag f).setV x b := by
  have hv : (s.v.set x.val b x.isLt).set VF.val (flagByte f) VF.isLt =
      (s.v.set VF.val (flagByte f) VF.isLt).set x.val b x.isLt := Vector.set_comm _ _ (Fin.val_ne_of_ne hx)
  simp only [State.setFlag, State.setV, hv]

/-- An instruction that ends with a flagged write to a register other than VF, of a result that the flag's write does
not change, answers the same under both write orders, but for the setting. -/
theorem exec_withAliasMode_of_writeFlagged (hx : x ≠ VF)
    (hseq : exec i (s.withAliasMode .sequential) = .next ((s.withAliasMode .sequential).writeFlagged x f g).advance)
    (hlast : exec i (s.withAliasMode .flagLast) = .next ((s.withAliasMode .flagLast).writeFlagged x f g).advance)
    (hg : g (s.withAliasMode .flagLast) = g ((s.withAliasMode .sequential).setFlag f)) :
    ∃ t u, exec i (s.withAliasMode .sequential) = .next t ∧ exec i (s.withAliasMode .flagLast) = .next u ∧
      u = { t with cfg := { s.cfg with vfAliasMode := .flagLast } } := by
  refine ⟨_, _, hseq, hlast, ?_⟩
  have hwrite : (s.withAliasMode .flagLast).writeFlagged x f g =
      ((s.withAliasMode .flagLast).setFlag f).setV x (g ((s.withAliasMode .sequential).setFlag f)) := by
    rw [← hg]
    exact State.setV_setFlag_comm hx _
  rw [hwrite]
  rfl

/-- Settles O27: where neither operand is VF, no result reads the flag. -/
theorem aliasModeMattersOnlyForVF : Obligations.AliasModeMattersOnlyForVF := by
  intro x y s i hx hy hi
  simp only [List.mem_cons, List.not_mem_nil, or_false] at hi
  obtain rfl | rfl | rfl | rfl | rfl := hi
  case inl => exact exec_withAliasMode_of_writeFlagged hx rfl rfl rfl
  all_goals
    refine exec_withAliasMode_of_writeFlagged hx rfl rfl ?_
    simp only [State.getV_setFlag_of_ne hx, State.getV_setFlag_of_ne hy, State.getV_withAliasMode]

end Sys2Proof.Machine
end

section
/-! PROOFS. The index register and the memory transfers (42_index_memory.md R180 to R186): what I, the transferred
bytes and the registers hold afterwards, and that nothing else changes. -/

namespace Sys2Proof.Machine

variable {s t : State}

/-! ## Frames -/

/-- All of the state but memory, I and PC is shared where every such field is. -/
theorem SameButMem.of_eq (v : t.v = s.v) (sp : t.sp = s.sp) (stack : t.stack = s.stack) (dt : t.dt = s.dt)
    (st : t.st = s.st) (fb : t.fb = s.fb) (run : t.run = s.run) (waitreg : t.waitreg = s.waitreg)
    (fault : t.fault = s.fault) (loaded : t.loaded = s.loaded) (key : t.key = s.key) (cfg : t.cfg = s.cfg)
    (draws : t.draws = s.draws) : SameButMem s t :=
  ⟨.of_eq v _, ⟨sp, stack⟩, ⟨dt, st⟩, .of_eq fb, ⟨run, waitreg, fault, loaded⟩, ⟨key, cfg⟩, draws⟩

/-- After the write of I and the advance, everything else is as before. -/
theorem frame_setI_advance (i : Instr) (s : State) (a : Addr) :
    Advanced s (s.setI a).advance ∧ SameButIndex s (s.setI a).advance ∧ Returns .executed i s (s.setI a).advance :=
  ⟨.of_pc rfl, ⟨.of_eq rfl _, .of_eq rfl rfl rfl rfl rfl rfl rfl rfl rfl rfl rfl rfl rfl⟩, .executed rfl⟩

/-! ## The index register -/

/-- The product of a byte and 5 is below 4096, so it does not wrap. -/
theorem glyphAddr_toNat (b : Byte) : (glyphAddr b).toNat = b.toNat * 5 := by
  have hb := b.isLt
  simp only [glyphAddr, zext12, BitVec.toNat_mul, BitVec.toNat_setWidth, BitVec.toNat_ofNat]
  omega

theorem add_zext12_toNat (a : Addr) (b : Byte) : (a + zext12 b).toNat = (a.toNat + b.toNat) % 4096 := by
  simp [zext12]

/-- Settles O29: both end with a write of I alone. -/
theorem indexLoads : Obligations.IndexLoads := fun _ x _ =>
  ⟨decode_of_eq_encode (formA_eq_wordA 0xA#4 _) rfl, ⟨_, rfl, rfl, frame_setI_advance ..⟩,
    decode_of_eq_encode (formXK_eq_wordXK 0xF#4 x 0x29#8) rfl,
    ⟨_, rfl, glyphAddr_toNat _, frame_setI_advance ..⟩⟩

/-- Under `unchanged` the registers after ADD I, Vx are those before. -/
theorem State.getV_setI_setIndexFlag_of_unchanged (a : Addr) (f : Bool) (r : Reg) (hm : s.cfg.fx1eVf = .unchanged) :
    ((s.setI a).setIndexFlag f).advance.getV r = s.getV r := by
  refine ((s.setI a).getV_setIndexFlag f r).trans ?_
  rw [State.setI_cfg, hm]
  rfl

/-- Under `overflow_flag` ADD I, Vx writes the flag to VF and no other register. -/
theorem State.getV_setI_setIndexFlag_of_overflowFlag (a : Addr) (f : Bool) (r : Reg)
    (hm : s.cfg.fx1eVf = .overflowFlag) :
    ((s.setI a).setIndexFlag f).advance.getV r = if VF = r then flagByte f else s.getV r := by
  refine ((s.setI a).getV_setIndexFlag f r).trans ?_
  rw [State.setI_cfg, hm]
  rfl

/-- Settles O30, by the setting of `FX1E_VF`; the flag is the comparison of the sum before it wraps. -/
theorem indexAdd : Obligations.IndexAdd := by
  intro x s
  refine ⟨decode_of_eq_encode (formXK_eq_wordXK 0xF#4 x 0x1E#8) rfl, _, rfl, ?index,
    fun hm r _ => State.getV_setI_setIndexFlag_of_unchanged _ _ r hm, fun hm => ⟨?flag, fun r hr => ?others⟩,
    .of_pc (by simp), by apply SameButRegs.of_eq <;> simp, .executed (by simp)⟩
  case index => simpa using add_zext12_toNat s.i (s.getV x)
  case flag =>
    rw [State.getV_setI_setIndexFlag_of_overflowFlag _ _ _ hm, if_pos rfl]
    exact flagByte_decide_toNat _
  case others =>
    rw [State.getV_setI_setIndexFlag_of_overflowFlag _ _ _ hm, if_neg (Ne.symm (List.ne_of_not_mem_cons hr))]

/-! ## I after a transfer -/

theorem State.postIncrement_i_of_unchanged {n : Nat} (hm : s.cfg.loadStoreI = .unchanged) :
    (s.postIncrement n).i = s.i := by
  simp [State.postIncrement_i, hm]

theorem State.postIncrement_i_toNat_of_increment {n : Nat} (hm : s.cfg.loadStoreI = .increment) :
    (s.postIncrement n).i.toNat = (s.i.toNat + n) % 4096 := by
  simp [State.postIncrement_i, hm]

/-! ## Decimal digits -/

/-- The digits in numbers, hundreds first. -/
theorem map_toNat_bcdDigits (b : Byte) :
    (bcdDigits b).map BitVec.toNat = [b.toNat / 100, b.toNat / 10 % 10, b.toNat % 10] := by
  simp [bcdDigits]

/-- Settles O31: the three bytes of the run are the digits, and the run writes no other. -/
theorem decimalDigitsAreStored : Obligations.DecimalDigitsAreStored := by
  intro x s hw
  have digit (j : Nat) (hj : j < 3) :
      ((s.writeBytes s.i (bcdDigits (s.getV x))).advance.readByte (s.i + BitVec.ofNat 12 j)).toNat =
        [(s.getV x).toNat / 100, (s.getV x).toNat / 10 % 10, (s.getV x).toNat % 10][j] := by
    simp only [← map_toNat_bcdDigits, List.getElem_map]
    exact congrArg BitVec.toNat
      (State.readByte_writeBytes_inside hw s.i (bcdDigits (s.getV x)) (by simp [bcdDigits]) j hj)
  have hundreds := digit 0 (by decide)
  rw [BitVec.add_zero] at hundreds
  exact ⟨decode_of_eq_encode (formXK_eq_wordXK 0xF#4 x 0x33#8) rfl, _, rfl,
    hundreds, digit 1 (by decide), digit 2 (by decide),
    fun b hb => State.readByte_writeBytes_outside hw _ b _ hb, State.writeBytes_i .., .of_pc (by simp),
    by apply SameButMem.of_eq <;> simp, .executed (by simp)⟩

/-! ## Register transfers -/

/-- Settles O32, from what the store puts inside and leaves outside its bytes. -/
theorem registersAreStored : Obligations.RegistersAreStored := by
  intro x s hw
  refine ⟨decode_of_eq_encode (formXK_eq_wordXK 0xF#4 x 0x55#8) rfl, _, rfl, fun j hj => ?inside,
    fun b hb => ?outside, fun hm => ?unchanged, fun hm => ?increment, .of_pc (by simp),
    by apply SameButMem.of_eq <;> simp, .executed (by simp)⟩
  case inside =>
    refine (State.postIncrement_readByte _ _ _).trans ?_
    rw [State.readByte_storeRegs_inside hw _ (by omega) j.val (Nat.lt_succ_of_le hj), Fin.ofNat_val_eq_self]
  case outside =>
    refine (State.postIncrement_readByte _ _ _).trans (State.readByte_storeRegs_outside hw _ b fun j hj => ?_)
    simpa [State.indirect] using hb j hj
  case unchanged => simp [State.postIncrement_i_of_unchanged, hm]
  case increment => simp [State.postIncrement_i_toNat_of_increment, hm, Nat.add_assoc]

/-- Settles O33, from what the load leaves in every register. -/
theorem registersAreLoaded : Obligations.RegistersAreLoaded := by
  intro x s
  have hget (r : Reg) := (State.postIncrement_getV _ (x.val + 1) r).trans (s.getV_loadRegs (x.val + 1) (by omega) r)
  refine ⟨decode_of_eq_encode (formXK_eq_wordXK 0xF#4 x 0x65#8) rfl, _, rfl,
    fun j hj => (hget j).trans (if_pos (Nat.lt_succ_of_le hj)), fun j hj => (hget j).trans (if_neg (Nat.not_lt.mpr hj)),
    fun hm => ?unchanged, fun hm => ?increment, .of_pc (by simp),
    by apply SameButRegs.of_eq <;> simp, .executed (by simp)⟩
  case unchanged => simp [State.postIncrement_i_of_unchanged, hm]
  case increment => simp [State.postIncrement_i_toNat_of_increment, hm, Nat.add_assoc]

/-- Settles O34: the store leaves I, so the load reads the bytes the store wrote, and it reads no register. -/
theorem storeThenLoadRestoresRegisters : Obligations.StoreThenLoadRestoresRegisters := by
  intro x s hw hm
  obtain ⟨-, t, ht, hstored, -, hi, -⟩ := registersAreStored x s hw
  have hindirect (j : Nat) : t.indirect j = s.indirect j := by rw [State.indirect, State.indirect, hi hm]
  refine ⟨t, ht, fun between => ?_⟩
  obtain ⟨-, u, hu, hloaded, -⟩ := registersAreLoaded x { t with v := between }
  refine ⟨u, hu, fun j hj => ?_⟩
  calc u.getV j
    _ = t.readByte (t.indirect j.val) := hloaded j hj
    _ = t.readByte (s.indirect j.val) := by rw [hindirect]
    _ = s.getV j := hstored j hj

end Sys2Proof.Machine
end

section
/-! PROOFS. The display (43_display.md R200 to R206): CLS, what one draw leaves on the screen and in VF, and that a
second draw of the same sprite undoes the first. -/

namespace Sys2Proof.Machine

variable {s u : State}

/-- Settles O37: the one field CLS writes beside PC is the screen, and every cell of the cleared screen is 0. -/
theorem clearScreen : Obligations.ClearScreen :=
  ⟨decode_of_eq_encode (i := .cls) rfl rfl, fun _ => ⟨_, rfl, Framebuffer.get_cleared, .of_pc rfl, .of_eq rfl _, rfl,
    .of_eq rfl rfl, ⟨rfl, rfl⟩, ⟨rfl, rfl⟩, ⟨rfl, rfl, rfl, rfl⟩, ⟨rfl, rfl⟩, rfl, .executed rfl⟩⟩

/-! ## One draw -/

/-- A sprite of Dxyn is short enough for the laws of `drawSprite`: no two of its bits fall on one cell (R202). -/
theorem State.spriteRows_length_le (s : State) (n : BitVec 4) : (s.spriteRows n.toNat).length ≤ 32 := by
  have := n.isLt
  simp only [State.spriteRows, List.length_map, List.length_range]
  omega

/-- VF after a draw is the collision flag, whatever the coordinate registers are. -/
theorem getV_VF_draw (s : State) (fb : Framebuffer) (f : Bool) :
    (((s.setFb fb).setFlag f).advance).getV VF = if f then 1 else 0 := State.getV_setV_same ..

/-- Settles O38, from the two laws of `drawSprite`: the cells turned over and the collision. -/
theorem drawXorsTheSprite : Obligations.DrawXorsTheSprite := by
  intro x y n s covers
  have hlen := s.spriteRows_length_le n
  have hcollided := collided_drawSprite s.fb (s.getV x) (s.getV y) (s.spriteRows n.toNat) hlen
  refine ⟨decode_of_eq_encode (formXYN_eq_wordXYN 0xD#4 x y n) rfl, _, rfl,
    get_drawSprite s.fb (s.getV x) (s.getV y) _ hlen, fun h => ?collision, fun h => ?noCollision,
    .of_setV rfl, rfl, .of_pc rfl, .of_eq rfl rfl, ⟨rfl, rfl⟩, ⟨rfl, rfl⟩, ⟨rfl, rfl, rfl, rfl⟩, ⟨rfl, rfl⟩, rfl,
    .executed rfl⟩
  case collision => rw [getV_VF_draw, if_pos (hcollided.mpr h)]
  case noCollision => rw [getV_VF_draw, if_neg (mt hcollided.mp h)]

/-! ## The same draw again -/

/-- The sprite depends on I and memory alone. -/
theorem State.spriteRows_congr (hi : u.i = s.i) (hm : SameMem s u) (n : Nat) : u.spriteRows n = s.spriteRows n := by
  simp only [State.spriteRows, State.indirect, hi, hm _]

/-- A covered cell holds 1 after the draw exactly where the draw turned it on: a covered cell changed, and a cell that
changed was covered. -/
theorem turnedOver_on_iff {before after : Bool} {covered : Prop}
    (h : after = true ↔ ¬ (before = true ↔ covered)) :
    covered ∧ after = true ↔ before = false ∧ after = true := by
  cases before <;> simp [h]

/-- Turning a cell over twice gives it back. -/
theorem turnedOver_twice {before between after : Bool} {covered : Prop}
    (h : between = true ↔ ¬ (before = true ↔ covered)) (h' : after = true ↔ ¬ (between = true ↔ covered)) :
    after = before := by
  rw [Bool.eq_iff_iff, h', h]
  tauto

/-- Settles O39, from O38 for both draws: `u` holds the same sprite at the same place, so the second draw turns over the
cells the first one did, and it collides where the first one turned a cell on. -/
theorem drawingTwiceRestoresTheScreen : Obligations.DrawingTwiceRestoresTheScreen := by
  intro x y n s
  obtain ⟨-, t, ht, htfb, -⟩ := drawXorsTheSprite x y n s
  refine ⟨t, ht, fun u hscreen hx hy hi hm => ?_⟩
  have hrows : ((List.range n.toNat).map fun j => u.readByte (u.indirect j)) =
      (List.range n.toNat).map fun j => s.readByte (s.indirect j) := State.spriteRows_congr hi hm n.toNat
  obtain ⟨-, w, hw, hwfb, hcollision, hnone, -⟩ := drawXorsTheSprite x y n u
  simp only [hrows, hx, hy, hscreen _ _, turnedOver_on_iff (htfb _ _)] at hwfb hcollision hnone
  exact ⟨w, hw, fun c r => turnedOver_twice (htfb c r) (hwfb c r), hcollision, hnone⟩

end Sys2Proof.Machine
end

section
/-! PROOFS. Keys and timers (44_timers_keys.md R220 to R228): the key tests, the key wait and its poll, the timer
transfers, and that no program reads ST. -/

namespace Sys2Proof.Machine

variable {s t : State} {i : Instr}

/-! ## The key skips -/

/-- SKP whose register names a key, or no key (R221). -/
theorem exec_skp_of_ok {x : Reg} {k : Option Reg} (h : keyidx s.cfg.keyIndexPolicy (s.getV x) = .ok k) :
    exec (.skp x) s = .next (s.skipIf (s.keyNamedDown k)) := by
  simp only [exec, execSkp, h]

/-- SKNP whose register names a key, or no key (R222). -/
theorem exec_sknp_of_ok {x : Reg} {k : Option Reg} (h : keyidx s.cfg.keyIndexPolicy (s.getV x) = .ok k) :
    exec (.sknp x) s = .next (s.skipIf (!s.keyNamedDown k)) := by
  simp only [exec, execSknp, h]

/-- SKP and SKNP whose register's value has no key index (R220). -/
theorem exec_skp_of_error {x : Reg} {c : FaultCause} (h : keyidx s.cfg.keyIndexPolicy (s.getV x) = .error c) :
    exec (.skp x) s = .next (s.raiseFault c) ∧ exec (.sknp x) s = .next (s.raiseFault c) := by
  simp only [exec, execSkp, execSknp, h, and_self]

theorem Skipped.of_skipIf {c : Bool} (h : c = true) : Skipped s (s.skipIf c) := .of_pc (by simp [h])

theorem Advanced.of_skipIf {c : Bool} (h : c = false) : Advanced s (s.skipIf c) := .of_pc (by simp [h])

/-- A key index faults only for a large value under the policy `fault`. -/
theorem keyidx_answers {p : KeyIndexPolicy} {b : Byte} (h : b.toNat < 16 ∨ p ≠ .fault) : ∃ k, keyidx p b = .ok k := by
  cases hk : keyidx p b with
  | ok k => exact ⟨k, rfl⟩
  | error c =>
    obtain ⟨-, hp, hb⟩ := keyidx_error hk
    exact h.elim (fun hlt => absurd hb (Nat.not_le.mpr hlt)) fun hne => absurd hp hne

/-- The values that name the key `k`: its number, and under `low_nibble` a large value whose low nibble it is. -/
theorem keyidx_names {p : KeyIndexPolicy} {b : Byte} {k : Reg}
    (h : k.val = b.toNat ∨ (16 ≤ b.toNat ∧ p = .lowNibble ∧ k.val = b.toNat % 16)) : keyidx p b = .ok (some k) := by
  obtain hk | ⟨hb, rfl, hk⟩ := h
  · rw [keyidx_small p (hk ▸ k.isLt)]
    simp [Fin.ext_iff, hk]
  · have hlow : lowNibble b = k := Fin.ext (by simp [lowNibble, hk])
    rw [keyidx_large _ hb, hlow]

/-- Settles O40, by whether the register's value names a key; both skips are then `State.skipIf` on that key. -/
theorem keySkips : Obligations.KeySkips := by
  refine fun x s => ⟨decode_of_eq_encode (formXK_eq_wordXK 0xE#4 x 0x9E#8) rfl,
    decode_of_eq_encode (formXK_eq_wordXK 0xE#4 x 0xA1#8) rfl, fun h => ?named, fun hv hp => ?fault⟩
  case named =>
    obtain ⟨named, hn⟩ := keyidx_answers h
    refine ⟨_, _, exec_skp_of_ok hn, exec_sknp_of_ok hn, .of_skipIf .., .of_skipIf .., .executed rfl, .executed rfl,
      fun k hk => ?key, fun hv hp => ?noKey⟩
    case key =>
      obtain rfl : named = some k := by simpa using hn.symm.trans (keyidx_names hk)
      exact ⟨fun hd => ⟨.of_skipIf hd, .of_skipIf (congrArg not hd)⟩,
        fun hd => ⟨.of_skipIf hd, .of_skipIf (congrArg not hd)⟩⟩
    case noKey =>
      obtain rfl : named = none := by simpa [hp] using hn.symm.trans (keyidx_large _ hv)
      exact ⟨.of_skipIf rfl, .of_skipIf rfl⟩
  case fault =>
    have herror : keyidx s.cfg.keyIndexPolicy (s.getV x) = .error .keyIndexRange := by rw [hp, keyidx_large _ hv]
    obtain ⟨hskp, hsknp⟩ := exec_skp_of_error herror
    exact ⟨_, _, hskp, hsknp, .of_raiseFault .., .of_raiseFault .., .faulted (.of_raiseFault ..),
      .faulted (.of_raiseFault ..)⟩

/-! ## The timer transfers -/

/-- After a write of the timers and the advance, everything else is as before. -/
theorem frame_timers_advance (i : Instr) (s : State) (dt st : Byte) :
    let t := State.advance { s with dt := dt, st := st }
    SameRegsBut [] s t ∧ t.i = s.i ∧ Advanced s t ∧ SameMem s t ∧ SameStack s t ∧ SameScreen s t ∧ SameMachine s t ∧
      SameInputs s t ∧ NoDraw s t ∧ Returns .executed i s t :=
  ⟨.of_eq rfl _, rfl, .of_pc rfl, .of_eq rfl rfl, ⟨rfl, rfl⟩, .of_eq rfl, ⟨rfl, rfl, rfl, rfl⟩, ⟨rfl, rfl⟩, rfl,
    .executed rfl⟩

/-- Settles O41: each of the three ends with one write. -/
theorem timerTransfers : Obligations.TimerTransfers := fun x s =>
  ⟨decode_of_eq_encode (formXK_eq_wordXK 0xF#4 x 0x07#8) rfl, ⟨_, rfl, getV_setV_advance .., frame_setV_advance ..⟩,
    decode_of_eq_encode (formXK_eq_wordXK 0xF#4 x 0x15#8) rfl,
    ⟨_, rfl, rfl, rfl, frame_timers_advance _ s (s.getV x) s.st⟩,
    decode_of_eq_encode (formXK_eq_wordXK 0xF#4 x 0x18#8) rfl,
    ⟨_, rfl, rfl, rfl, frame_timers_advance _ s s.dt (s.getV x)⟩⟩

/-! ## The key wait -/

/-- With a key pressed, a wait takes one. -/
theorem State.exists_selectedKey (h : ∃ k, s.keyDown k = true) : ∃ k, s.selectedKey = some k := by
  obtain ⟨k, hk⟩ := h
  refine Option.ne_none_iff_exists'.mp fun hnone => ?_
  simp [s.selectedKey_none.mp hnone k] at hk

/-- A key's number fits a byte. -/
theorem key_toNat (k : Reg) : (BitVec.ofNat 8 k.val).toNat = k.val :=
  Nat.mod_eq_of_lt (Nat.lt_trans k.isLt (by decide))

/-- Fx0A with a key to take (R224). -/
theorem exec_ldVxK_of_some {x k : Reg} (h : s.selectedKey = some k) : exec (.ldVxK x) s = .next (s.takeKey x k) := by
  simp only [exec, execLdVxK, h]

/-- Fx0A with no key to take (R224). -/
theorem exec_ldVxK_of_none {x : Reg} (h : s.selectedKey = none) : exec (.ldVxK x) s = .next (s.enterWait x) := by
  simp only [exec, execLdVxK, h]

/-- Settles O42, by the two cases of `State.selectedKey`. -/
theorem waitForKey : Obligations.WaitForKey := by
  refine fun x s => ⟨decode_of_eq_encode (formXK_eq_wordXK 0xF#4 x 0x0A#8) rfl, fun hdown => ?_, fun hup => ?_⟩
  · obtain ⟨k, hk⟩ := State.exists_selectedKey hdown
    have hget : (s.takeKey x k).getV x = BitVec.ofNat 8 k.val := getV_setV_advance s.nextDraw x _
    exact ⟨_, k, exec_ldVxK_of_some hk, State.selectedKey_down hk, by rw [hget, key_toNat], .of_setV rfl, rfl,
      .of_pc rfl, .of_eq rfl rfl, ⟨rfl, rfl⟩, ⟨rfl, rfl⟩, .of_eq rfl, ⟨rfl, rfl, rfl, rfl⟩, ⟨rfl, rfl⟩, .executed rfl⟩
  · exact ⟨_, exec_ldVxK_of_none (s.selectedKey_none.mpr hup), rfl, rfl, rfl, rfl,
      ⟨.of_eq rfl _, rfl, rfl, .of_eq rfl rfl, ⟨rfl, rfl⟩, ⟨rfl, rfl⟩, .of_eq rfl, ⟨rfl, rfl⟩, rfl⟩, .waiting rfl⟩

/-- The step of a loaded waiting machine is the poll (R225). -/
theorem step_of_waiting (hl : s.loaded = true) (hr : s.run = .waitingForKey) : step s = .next s.keywaitPoll := by
  simp [step, hl, hr]

/-- Settles O13, by the two cases of `State.selectedKey`. -/
theorem keyWaitPoll : Obligations.KeyWaitPoll := by
  refine fun s hl hr => ⟨by simp [State.stepAccesses, hl, hr], fun hup => ?_, fun hdown => ?_⟩ <;>
    rw [step_of_waiting hl hr]
  · have hk := s.selectedKey_none.mpr hup
    simp [State.keywaitPoll, stepResult, hr, hk]
  · obtain ⟨k, hk⟩ := State.exists_selectedKey hdown
    have hpoll : s.keywaitPoll = s.completeWait k := by simp only [State.keywaitPoll, hk]
    have hresult : stepResult s (s.completeWait k) = .executed := by simp [stepResult, hr, hk]
    have hget : ((s.completeWait k).getV s.waitreg).toNat = k.val := by
      rw [State.getV_completeWait, if_pos rfl, key_toNat]
    exact ⟨_, k, congrArg _ hpoll, State.selectedKey_down hk, hget, rfl, .of_pc rfl, hresult, .of_setV rfl, rfl,
      .of_eq rfl rfl, ⟨rfl, rfl⟩, ⟨rfl, rfl⟩, .of_eq rfl, rfl, rfl, rfl, ⟨rfl, rfl⟩⟩

/-! ## ST is never read -/

section
variable (s : State) (b : Byte)

/-- A flagged write commutes with a write of ST when its result does not read ST. -/
theorem State.writeFlagged_setSt (x : Reg) (f : Bool) (g : State → Byte) (hg : ∀ u : State, g (u.setSt b) = g u) :
    (s.setSt b).writeFlagged x f g = (s.writeFlagged x f g).setSt b := by
  have hflag : (s.setSt b).setFlag f = (s.setFlag f).setSt b := rfl
  cases hc : s.cfg.vfAliasMode <;> simp only [State.writeFlagged, State.setSt_cfg, hc, hflag, hg] <;> rfl

theorem State.setIndexFlag_setSt (f : Bool) : (s.setSt b).setIndexFlag f = (s.setIndexFlag f).setSt b := by
  cases hc : s.cfg.fx1eVf <;> simp only [State.setIndexFlag, State.setSt_cfg, hc]
  rfl

theorem State.postIncrement_setSt (n : Nat) : (s.setSt b).postIncrement n = (s.postIncrement n).setSt b := by
  cases hc : s.cfg.loadStoreI <;> simp only [State.postIncrement, State.setSt_cfg, hc]
  rfl

theorem State.storeRegs_setSt (n : Nat) : (s.setSt b).storeRegs n = (s.storeRegs n).setSt b := by
  induction n with
  | zero => rfl
  | succ n ih => rw [State.storeRegs, ih]; rfl

theorem State.loadRegs_setSt (n : Nat) : (s.setSt b).loadRegs n = (s.loadRegs n).setSt b := by
  induction n with
  | zero => rfl
  | succ n ih => rw [State.loadRegs, ih]; rfl

theorem State.keywaitPoll_setSt : (s.setSt b).keywaitPoll = s.keywaitPoll.setSt b := by
  have hkey : (s.setSt b).selectedKey = s.selectedKey := rfl
  cases hk : s.selectedKey <;> simp only [State.keywaitPoll, hkey, hk]
  rfl

/-- An instruction that ends with a write that commutes with the write of ST does the same whatever ST is. -/
theorem exec_setSt_of_advance {u u' : State} (h : exec i s = .next u.advance)
    (h' : exec i (s.setSt b) = .next u'.advance) (hu : u' = u.setSt b) :
    ∃ t c, exec i s = .next t ∧ exec i (s.setSt b) = .next (t.setSt c) :=
  ⟨u.advance, b, h, by rw [h', hu]; rfl⟩

/-- Every instruction does the same whatever ST is, but for ST afterwards. -/
theorem exec_setSt (i : Instr) : ∃ t c, exec i s = .next t ∧ exec i (s.setSt b) = .next (t.setSt c) := by
  cases i
  case ret =>
    obtain hs | hs := Nat.eq_zero_or_pos s.sp.val
    · exact ⟨_, b, exec_ret_of_empty hs, exec_ret_of_empty (s := s.setSt b) hs⟩
    · exact ⟨_, b, exec_ret_of_pos hs, exec_ret_of_pos (s := s.setSt b) hs⟩
  case call nnn =>
    obtain hs | hs := Nat.lt_or_eq_of_le (Nat.le_of_lt_succ s.sp.isLt)
    · exact ⟨_, b, exec_call_of_lt hs, exec_call_of_lt (s := s.setSt b) hs⟩
    · exact ⟨_, b, exec_call_of_full hs, exec_call_of_full (s := s.setSt b) hs⟩
  case skp x =>
    cases hk : keyidx s.cfg.keyIndexPolicy (s.getV x) with
    | ok k => exact ⟨_, b, exec_skp_of_ok hk, exec_skp_of_ok (s := s.setSt b) hk⟩
    | error c => exact ⟨_, b, (exec_skp_of_error hk).1, (exec_skp_of_error (s := s.setSt b) hk).1⟩
  case sknp x =>
    cases hk : keyidx s.cfg.keyIndexPolicy (s.getV x) with
    | ok k => exact ⟨_, b, exec_sknp_of_ok hk, exec_sknp_of_ok (s := s.setSt b) hk⟩
    | error c => exact ⟨_, b, (exec_skp_of_error hk).2, (exec_skp_of_error (s := s.setSt b) hk).2⟩
  case ldVxK x =>
    cases hk : s.selectedKey with
    | some k => exact ⟨_, b, exec_ldVxK_of_some hk, exec_ldVxK_of_some (s := s.setSt b) hk⟩
    | none => exact ⟨_, b, exec_ldVxK_of_none hk, exec_ldVxK_of_none (s := s.setSt b) hk⟩
  case addReg | sub | shr | subn | shl =>
    exact exec_setSt_of_advance s b rfl rfl (State.writeFlagged_setSt s b _ _ _ fun _ => rfl)
  case addIVx x =>
    exact exec_setSt_of_advance s b rfl rfl (State.setIndexFlag_setSt (s.setI (s.i + zext12 (s.getV x))) b _)
  case ldMemVx x =>
    exact exec_setSt_of_advance s b rfl rfl (by rw [State.storeRegs_setSt, State.postIncrement_setSt])
  case ldVxMem x =>
    exact exec_setSt_of_advance s b rfl rfl (by rw [State.loadRegs_setSt, State.postIncrement_setSt])
  case ldStVx x => exact ⟨_, s.getV x, rfl, rfl⟩
  all_goals exact ⟨_, b, rfl, rfl⟩

end

/-- A loaded Running machine skips a word that is no instruction. -/
theorem step_of_decode_error {e : DecodeReject} (hl : s.loaded = true) (hr : s.run = .running)
    (hd : decode s.fetchWord = .error e) : step s = .next s.decodeFailure := by
  simp [step, hl, hr, hd]

/-- A step does the same whatever ST is, but for ST afterwards. -/
theorem step_setSt (h : step s = .next t) (b : Byte) : ∃ c, step (s.setSt b) = .next (t.setSt c) := by
  obtain ⟨hl, ⟨hr, rfl⟩ | ⟨hr, rfl⟩ | ⟨hr, ⟨i, hd, he⟩ | ⟨e, hd, rfl⟩⟩⟩ := step_next h
  · exact ⟨b, by simp [step, hl, hr]⟩
  · exact ⟨b, (step_of_waiting (s := s.setSt b) hl hr).trans (congrArg _ (s.keywaitPoll_setSt b))⟩
  · obtain ⟨u, c, hu, hb⟩ := exec_setSt s b i
    obtain rfl : t = u := by simpa [he] using hu
    exact ⟨c, (step_of_decode (s := s.setSt b) hl hr hd).trans hb⟩
  · exact ⟨b, step_of_decode_error (s := s.setSt b) hl hr hd⟩

/-- Settles O58: what a step does depends on ST nowhere, and neither does its result. -/
theorem soundTimerIsNeverRead : Obligations.SoundTimerIsNeverRead := by
  intro s t b h
  obtain ⟨c, hc⟩ := step_setSt h b
  exact ⟨t.setSt c, hc, rfl, rfl⟩

end Sys2Proof.Machine
end

section
/-! PROOFS. Exceptions (60_exceptions.md): the step keeps the invariant, what halts the machine, what a Halted machine
still does, the decode failure that is no fault, and the tick of the timers. -/

namespace Sys2Proof.Machine

variable {s t : State} {i : Instr}

/-! ## The invariant -/

/-- Settles O52, by `step_inv`, which goes through what a step can be: the Halted machine's own state, a poll, an
instruction or a skipped word. -/
theorem stepKeepsTheInvariant : Obligations.StepKeepsTheInvariant := fun _ _ => step_inv

/-! ## Taking a fault (R240, R242, R243) -/

theorem canFault_iff : canFault i = true ↔ i = .ret ∨ (∃ nnn, i = .call nnn) ∨ ∃ x, i = .skp x ∨ i = .sknp x := by
  cases i <;> simp [canFault]

/-- An instruction that halts the machine is one that can take a fault: Fx0A, the other writer of RUN, takes a key or
waits. -/
theorem canFault_of_exec_halts (hr : s.run ≠ .halted) (h : exec i s = .next t) (ht : t.run = .halted) :
    canFault i = true := by
  have hne : t.run ≠ s.run := fun he => hr (he ▸ ht)
  obtain hc | ⟨x, rfl⟩ := (exec_writtenBy h).run hne
  · exact hc
  · cases hk : s.selectedKey with
    | some k =>
      rw [exec_ldVxK_of_some hk] at h
      cases h
      exact absurd rfl hne
    | none =>
      rw [exec_ldVxK_of_none hk] at h
      cases h
      simp at ht

/-- SKP and SKNP either skip by some condition or take the fault of their key index (R220). -/
theorem exec_keySkip_cases {x : Reg} (hi : i = .skp x ∨ i = .sknp x) :
    (∃ c, exec i s = .next (s.skipIf c)) ∨
    ∃ c, keyidx s.cfg.keyIndexPolicy (s.getV x) = .error c ∧ exec i s = .next (s.raiseFault c) := by
  cases hk : keyidx s.cfg.keyIndexPolicy (s.getV x) with
  | ok k =>
    obtain rfl | rfl := hi
    exacts [.inl ⟨_, exec_skp_of_ok hk⟩, .inl ⟨_, exec_sknp_of_ok hk⟩]
  | error c =>
    obtain ⟨hskp, hsknp⟩ := exec_skp_of_error hk
    obtain rfl | rfl := hi
    exacts [.inr ⟨c, rfl, hskp⟩, .inr ⟨c, rfl, hsknp⟩]

/-- Settles O43, by the instructions that can fault: where one does not, it leaves RUN as it was. -/
theorem faultsArePreciseAndComplete : Obligations.FaultsArePreciseAndComplete := by
  intro i s t hr h ht
  obtain rfl | ⟨nnn, rfl⟩ | ⟨x, hi⟩ := canFault_iff.mp (canFault_of_exec_halts hr h ht)
  · obtain h0 | hpos := Nat.eq_zero_or_pos s.sp.val
    · rw [exec_ret_of_empty h0] at h
      cases h
      exact ⟨_, rfl, .inl ⟨rfl, h0, rfl⟩⟩
    · rw [exec_ret_of_pos hpos] at h
      cases h
      exact absurd ht hr
  · obtain hlt | hfull := Nat.lt_or_eq_of_le (Nat.le_of_lt_succ s.sp.isLt)
    · rw [exec_call_of_lt hlt] at h
      cases h
      exact absurd ht hr
    · rw [exec_call_of_full hfull] at h
      cases h
      exact ⟨_, rfl, .inr (.inl ⟨nnn, rfl, hfull, rfl⟩)⟩
  · obtain ⟨c, hs⟩ | ⟨c, hk, hf⟩ := exec_keySkip_cases (s := s) hi
    · rw [hs] at h
      cases h
      exact absurd ht hr
    · obtain ⟨hc, hp, hv⟩ := keyidx_error hk
      rw [hf] at h
      cases h
      exact ⟨c, rfl, .inr (.inr ⟨x, hi, hv, hp, hc⟩)⟩

/-! ## The Halted machine (R244, R245) -/

theorem step_of_halted (hl : s.loaded = true) (hr : s.run = .halted) : step s = .next s := by
  simp [step, hl, hr]

/-- Settles O11. -/
theorem haltedStepDoesNothing : Obligations.HaltedStepDoesNothing :=
  fun s hl hr => ⟨step_of_halted hl hr, by simp [stepResult, hr]⟩

/-- Everything but DT, ST and KEY, which ticks and key changes go on writing, is as before. -/
def SameButTimersKeys (s t : State) : Prop := ∃ dt st key, t = { s with dt := dt, st := st, key := key }

/-- A transaction other than reset leaves a loaded Halted machine as it is, but for its timers and keys. -/
theorem transact_halted {x : Transaction} {r : Response} (hx : x ≠ .reset) (hl : s.loaded = true)
    (hr : s.run = .halted) (h : transact x s = .next (t, r)) : SameButTimersKeys s t := by
  obtain ⟨rfl, -⟩ | ⟨rom, -, hunloaded, -⟩ | ⟨-, hs⟩ | ⟨-, rfl⟩ | ⟨k, p, -, rfl⟩ | rfl := transact_next h
  · exact absurd rfl hx
  · simp [hl] at hunloaded
  · rw [step_of_halted hl hr] at hs
    cases hs
    exact ⟨_, _, _, rfl⟩
  · exact ⟨_, _, _, rfl⟩
  · exact ⟨_, _, _, rfl⟩
  · exact ⟨_, _, _, rfl⟩

/-- A run without reset leaves a loaded Halted machine as it is, but for its timers and keys. -/
theorem runTransactions_halted {xs : List Transaction} {rs : List Response} (hx : Transaction.reset ∉ xs)
    (hl : s.loaded = true) (hr : s.run = .halted) (h : runTransactions xs s = .next (t, rs)) :
    SameButTimersKeys s t := by
  refine runTransactions_induction (P := SameButTimersKeys s) ?_ ⟨_, _, _, rfl⟩ h
  rintro x hmem _ u r ⟨dt, st, key, rfl⟩ hu
  exact transact_halted (s := { s with dt := dt, st := st, key := key }) (fun he => hx (he ▸ hmem)) hl hr hu

/-- Settles O44: none of what is named is a timer or a key. -/
theorem haltedUntilReset : Obligations.HaltedUntilReset := by
  intro xs s t rs hx hr hl h
  obtain ⟨dt, st, key, rfl⟩ := runTransactions_halted hx hl hr h
  exact ⟨hr, rfl, rfl, rfl, .of_eq rfl _, .of_eq rfl rfl, ⟨rfl, rfl⟩, .of_eq rfl⟩

/-! ## The decode failure (R246) -/

/-- Settles O10: the step is the default advance. -/
theorem decodeFailureIsSkipped : Obligations.DecodeFailureIsSkipped := fun s _ hl hr hd =>
  ⟨s.decodeFailure, step_of_decode_error hl hr hd, .of_pc rfl, .of_advance s, by simp [stepResult, hr, hd]⟩

/-! ## The tick (R251) -/

/-- A nonzero counter goes down by one. -/
theorem tickDown_toNat {b : Byte} (h : b ≠ 0) : (tickDown b).toNat + 1 = b.toNat := by
  rw [tickDown, if_neg h]
  bv_omega

theorem tickDown_of_eq_zero {b : Byte} (h : b = 0) : tickDown b = 0 := if_pos h

/-- Settles O47: the tick writes DT and ST alone, each by `tickDown`. -/
theorem tickDecrementsBothTimers : Obligations.TickDecrementsBothTimers := fun s =>
  ⟨s.tick, rfl, tickDown_toNat, tickDown_of_eq_zero, tickDown_toNat, tickDown_of_eq_zero, .of_eq rfl _, rfl, rfl,
    .of_eq rfl rfl, ⟨rfl, rfl⟩, .of_eq rfl, ⟨rfl, rfl, rfl, rfl⟩, ⟨rfl, rfl⟩, rfl⟩

end Sys2Proof.Machine
end

section
/-! PROOFS. Loading a program, and the parked machine (70_reset_and_hazards.md R272, R273, R278). -/

namespace Sys2Proof.Machine

variable {s : State} {rom : List Byte}

/-! ## The load (R272, R273) -/

/-- The place of byte `j` of a program as `writeBytes` counts it: so many addresses from 0x200. -/
theorem romAddr_eq (j : Nat) : BitVec.ofNat 12 (0x200 + j) = (0x200 : Addr) + BitVec.ofNat 12 j :=
  BitVec.ofNat_add 0x200 j

theorem State.readByte_loadRom (rom : List Byte) (a : Addr) :
    (s.loadRom rom).readByte a = (s.writeBytes 0x200 rom).readByte a :=
  State.readByte_congr (by simp) (by simp) a

/-- Byte `j` of a program that fits is read back from 0x200 + j. -/
theorem State.readByte_loadRom_inside (hw : Memory.wf s.cfg.font s.mem) (hlen : rom.length ≤ maxProgram) (j : Nat)
    (hj : j < rom.length) : (s.loadRom rom).readByte (BitVec.ofNat 12 (0x200 + j)) = rom[j] := by
  rw [State.readByte_loadRom, romAddr_eq]
  exact State.readByte_writeBytes_inside hw 0x200 rom (hlen.trans (by decide)) j hj

/-- The bytes below 0x200 and those after a program that fits read as before: the program does not wrap. -/
theorem State.readByte_loadRom_outside (hw : Memory.wf s.cfg.font s.mem) (hlen : rom.length ≤ maxProgram) (a : Addr)
    (ha : a.toNat < 0x200 ∨ 0x200 + rom.length ≤ a.toNat) : (s.loadRom rom).readByte a = s.readByte a := by
  rw [State.readByte_loadRom]
  refine State.readByte_writeBytes_outside hw 0x200 a rom fun j hj he => ?_
  have hplace : a.toNat = 0x200 + j := by
    rw [he, ← romAddr_eq, BitVec.toNat_ofNat]
    unfold maxProgram at hlen
    omega
  omega

theorem transact_load_of_fits (hl : s.loaded = false) (hlen : rom.length ≤ maxProgram) :
    transact (.load rom) s = .next (s.loadRom rom, .load .ok) := by
  simp [transact, hl, Nat.not_lt.mpr hlen]

theorem transact_load_of_tooLarge (hl : s.loaded = false) (hlen : maxProgram < rom.length) :
    transact (.load rom) s = .next (s, .load .romTooLarge) := by
  simp [transact, hl, hlen]

theorem transact_load_of_loaded (hl : s.loaded = true) : transact (.load rom) s = .refused .loadAfterLoad :=
  if_pos hl

/-- Settles O46, by the three cases of a load; where the program fits, it writes memory by `writeBytes` and LOADED. -/
theorem loadCopiesTheProgram : Obligations.LoadCopiesTheProgram := by
  refine fun rom s hw => ⟨fun hl hlen => ?_, transact_load_of_tooLarge, transact_load_of_loaded⟩
  exact ⟨s.loadRom rom, transact_load_of_fits hl hlen, rfl, State.readByte_loadRom_inside hw hlen,
    State.readByte_loadRom_outside hw hlen, .of_eq (by simp) _, by simp, by simp, ⟨by simp, by simp⟩,
    ⟨by simp, by simp⟩, .of_eq (by simp), by simp, by simp, by simp, ⟨by simp, by simp⟩, s.loadRom_draws rom⟩

/-! ## The parked machine (R278) -/

/-- Settles O14: the machine fetches JP e, which sets PC to the e it already holds. -/
theorem parkedStepChangesNothing : Obligations.ParkedStepChangesNothing := by
  rintro s e hl ⟨hr, rfl, hword⟩
  have hd : decode s.fetchWord = .ok (.jp s.pc) := decode_of_eq_encode hword rfl
  exact ⟨step_of_decode hl hr hd, Returns.executed (t := s) rfl hr hd⟩

end Sys2Proof.Machine
end
